-- ==== Sys2Proof/Word.lean ====
section
/-! DEFINITION. The word types of the block and the items that cross its ports (30_encoding.md R60, R61, R62). -/

namespace Sys2Proof

/-- An input byte, a symbol byte or an output byte. -/
abbrev Byte := BitVec 8

/-- An entry of `ROM_INV` and the register `FD`: 7 bits (10_state.md R20, 20_memory.md R43). -/
abbrev Digit := BitVec 7

/-- The register `NBITS`: 5 bits (10_state.md R22). -/
abbrev Count := BitVec 5

/-- The selector word `SEL[12:0]` (30_encoding.md R62). -/
abbrev Sel := BitVec 13

/-- An input or output item on its port: 9 bits (30_encoding.md R60, R61). -/
abbrev ItemWord := BitVec 9

/-- An input item `IN_ITEM` (30_encoding.md R60). `data` is ignored when `eos` is true, and all 512 values are legal. -/
structure InItem where
  eos  : Bool
  data : Byte
deriving DecidableEq, Repr

/-- An output item `OUT_ITEM` (30_encoding.md R61): one output byte, or the end of the sequence. -/
inductive OutItem where
  | data (b : Byte)
  | endSeq
deriving DecidableEq, Repr

end Sys2Proof
end

