-- ==== Sys2Proof/Config.lean ====
section
/-! DEFINITION. What is fixed when an instance is elaborated: the parameters of 00_scope.md R8. The block has no free
value: every value an operation leaves is stated by the spec. -/

namespace Sys2Proof

/-- The direction parameter `DIR` (00_scope.md R1, R8). -/
inductive Dir where
  | enc
  | dec
deriving DecidableEq, Repr

/-- `DIR` as the bit `SEL[11]`: ENC is 0, DEC is 1 (00_scope.md R8, 30_encoding.md R62). -/
def Dir.bit : Dir → Bool
  | .enc => false
  | .dec => true

/-- The parameters of one instance (00_scope.md R8). They are configuration: no micro-operation writes them and reset
leaves them (10_state.md R26). A `Config` may be ill-formed data. `Config.wf` is the check the model applies before it
gives anything a meaning (60_exceptions.md R208 a). -/
structure Config where
  dir      : Dir
  alphabet : List Byte
  accW     : Nat
deriving DecidableEq, Repr

/-- The default `ALPHABET` of 93_implementation_defined.md I1, index 0 first, seven entries a row as there. PRESUMED by
the spec itself: the table is general knowledge and not in its source (log entry 2). No rule rests on it. -/
def defaultAlphabet : List Byte :=
  [0x41, 0x42, 0x43, 0x44, 0x45, 0x46, 0x47]
  ++ [0x48, 0x49, 0x4A, 0x4B, 0x4C, 0x4D, 0x4E]
  ++ [0x4F, 0x50, 0x51, 0x52, 0x53, 0x54, 0x55]
  ++ [0x56, 0x57, 0x58, 0x59, 0x5A, 0x61, 0x62]
  ++ [0x63, 0x64, 0x65, 0x66, 0x67, 0x68, 0x69]
  ++ [0x6A, 0x6B, 0x6C, 0x6D, 0x6E, 0x6F, 0x70]
  ++ [0x71, 0x72, 0x73, 0x74, 0x75, 0x76, 0x77]
  ++ [0x78, 0x79, 0x7A, 0x30, 0x31, 0x32, 0x33]
  ++ [0x34, 0x35, 0x36, 0x37, 0x38, 0x39, 0x21]
  ++ [0x23, 0x24, 0x25, 0x26, 0x28, 0x29, 0x2A]
  ++ [0x2B, 0x2C, 0x2E, 0x2F, 0x3A, 0x3B, 0x3C]
  ++ [0x3D, 0x3E, 0x3F, 0x40, 0x5B, 0x5D, 0x5E]
  ++ [0x5F, 0x60, 0x7B, 0x7C, 0x7D, 0x7E, 0x22]

/-- The default parameters, with the encoder's direction (DESIGN CHOICE, log entry 2: both elaborations exist, R1). -/
def Config.default : Config := { dir := .enc, alphabet := defaultAlphabet, accW := 32 }

end Sys2Proof
end

