-- ==== Sys2Proof/Syntax.lean ====
section
/-! DEFINITION. The micro-operations of the block: one constructor for each row of 30_encoding.md R64 and of
opcode_table.json. -/

namespace Sys2Proof

/-- The nine micro-operations. The only operand is the byte `DATA` of the item taken (30_encoding.md R66). -/
inductive Instr where
  /-- RESET, 42_interface_control.md R160. -/
  | reset
  /-- ENC_EMIT, 40_encoder.md R103. -/
  | encEmit
  /-- ENC_END, 40_encoder.md R104. -/
  | encEnd
  /-- ENC_EOS, 40_encoder.md R102. -/
  | encEos
  /-- ENC_BYTE, 40_encoder.md R100: `b` is the input byte. -/
  | encByte (b : Byte)
  /-- DEC_EMIT, 41_decoder.md R136. -/
  | decEmit
  /-- DEC_END, 41_decoder.md R137. -/
  | decEnd
  /-- DEC_EOS, 41_decoder.md R135. -/
  | decEos
  /-- DEC_SYM, 41_decoder.md R130: `c` is the candidate symbol byte. -/
  | decSym (c : Byte)
deriving DecidableEq, Repr

end Sys2Proof
end

