-- ==== Sys2Proof/WellFormed.lean ====
section
/-! DEFINITION. The checks on configurations, instructions and output words. -/

namespace Sys2Proof

/-- The bytes of the list differ from one another and from those whose bits are set in `seen`. Written over a set of
bits so that the kernel evaluates it fast; `Laws.distinct_iff_nodup` says that from the empty set it is `List.Nodup`. -/
def distinctFrom : Nat → List Byte → Bool
  | _, [] => true
  | seen, b :: bs => !seen.testBit b.toNat && distinctFrom (seen ||| (1 <<< b.toNat)) bs

/-- A legal configuration (00_scope.md R8): an alphabet of 91 pairwise distinct bytes and an accumulator of at least 21
bits. Any other is refused (60_exceptions.md R208 a). -/
def Config.wf (c : Config) : Bool :=
  c.alphabet.length == 91 && distinctFrom 0 c.alphabet && decide (21 ≤ c.accW)

/-- The micro-operation belongs to the direction: an elaboration has RESET and the four rows of its own `DIR`
(30_encoding.md R64). Every operand byte is legal (R65). -/
def Instr.legalIn : Instr → Dir → Bool
  | .reset,     _    => true
  | .encEmit,   d    => d == .enc
  | .encEnd,    d    => d == .enc
  | .encEos,    d    => d == .enc
  | .encByte _, d    => d == .enc
  | .decEmit,   d    => d == .dec
  | .decEnd,    d    => d == .dec
  | .decEos,    d    => d == .dec
  | .decSym _,  d    => d == .dec

/-- A legal output word: with `END = 1` the data bits are 0 (30_encoding.md R61). -/
def outWordOk (w : ItemWord) : Bool :=
  !w.getLsbD 8 || w == 0x100#9

end Sys2Proof
end

