-- ==== Sys2Proof/Decode.lean ====
section
/-! DEFINITION. The operation map of 30_encoding.md R64 as a list of rows, the decoder that looks a selector word up in
it, the encoder written from the same map, and the words of the input and output items. -/

namespace Sys2Proof

/-- One row of the operation map: a selector word matches when `(SEL & mask) == pattern` (30_encoding.md R64). `build`
makes the micro-operation from the word's `DATA` field. -/
structure OpRow where
  mnemonic : String
  pattern  : Sel
  mask     : Sel
  build    : Byte → Instr

/-- The operation map, row by row as 30_encoding.md R64 lists it. -/
def opTable : List OpRow :=
  [ ⟨"RESET",    0x1000#13, 0x1000#13, fun _ => .reset⟩,
    ⟨"ENC_EMIT", 0x0200#13, 0x1A00#13, fun _ => .encEmit⟩,
    ⟨"ENC_END",  0x0400#13, 0x1E00#13, fun _ => .encEnd⟩,
    ⟨"ENC_EOS",  0x0100#13, 0x1F00#13, fun _ => .encEos⟩,
    ⟨"ENC_BYTE", 0x0000#13, 0x1F00#13, fun d => .encByte d⟩ ] ++
  [ ⟨"DEC_EMIT", 0x0A00#13, 0x1A00#13, fun _ => .decEmit⟩,
    ⟨"DEC_END",  0x0C00#13, 0x1E00#13, fun _ => .decEnd⟩,
    ⟨"DEC_EOS",  0x0900#13, 0x1F00#13, fun _ => .decEos⟩,
    ⟨"DEC_SYM",  0x0800#13, 0x1F00#13, fun c => .decSym c⟩ ]

/-- The row matches the word (30_encoding.md R64). -/
def OpRow.matchesWord (r : OpRow) (w : Sel) : Bool :=
  (w &&& r.mask) == r.pattern

/-- `SEL[7:0]`, the field `DATA` (30_encoding.md R62). -/
def selData (w : Sel) : Byte :=
  w.extractLsb' 0 8

/-- Why a word is no micro-operation. -/
inductive DecodeError where
  /-- No row of the operation map matches. It never happens to a 13-bit word (30_encoding.md R65). -/
  | noRow
  /-- A bit above `SEL[12]` is set, so the word is no selector word (30_encoding.md R62). -/
  | tooWide
deriving DecidableEq, Repr

/-- The micro-operation a selector word selects: the first row of the operation map that matches. -/
def decodeSel (w : Sel) : Except DecodeError Instr :=
  match opTable.find? (fun r => r.matchesWord w) with
  | some r => .ok (r.build (selData w))
  | none => .error .noRow

/-- Decoding of any number of bits, rejecting by name. -/
def decodeWord (w : Nat) : Except DecodeError Instr :=
  if w < 2 ^ 13 then decodeSel (BitVec.ofNat 13 w) else .error .tooWide

/-- The host's question about one row of the table: the word's bits are `w`, bit 0 being `SEL[0]`. -/
def decodeTableWord (_nbits w : Nat) : Option Instr :=
  (decodeWord w).toOption

/-- The selector word of a micro-operation, with the bits it does not sample at 0 (the form of 95_test_vectors.md L3). -/
def encode : Instr → Sel
  | .reset     => 0x1000#13
  | .encEmit   => 0x0200#13
  | .encEnd    => 0x0400#13
  | .encEos    => 0x0100#13
  | .encByte b => b.zeroExtend 13
  | .decEmit   => 0x0A00#13
  | .decEnd    => 0x0C00#13
  | .decEos    => 0x0900#13
  | .decSym c  => 0x0800#13 ||| c.zeroExtend 13

/-- The bits of `SEL` the micro-operation samples: the mask of its row (30_encoding.md R64). -/
def sampledMask : Instr → Sel
  | .reset     => 0x1000#13
  | .encEmit   => 0x1A00#13
  | .encEnd    => 0x1E00#13
  | .encEos    => 0x1F00#13
  | .encByte _ => 0x1F00#13
  | .decEmit   => 0x1A00#13
  | .decEnd    => 0x1E00#13
  | .decEos    => 0x1F00#13
  | .decSym _  => 0x1F00#13

/-- The selector word of the given fields (30_encoding.md R62): `{RST, DIR, DONE, PEND_V, EOS, DATA}`. -/
def packSel (rst dir done pendV eos : Bool) (data : Byte) : Sel :=
  (BitVec.ofBool rst ++ BitVec.ofBool dir ++ BitVec.ofBool done ++ BitVec.ofBool pendV ++ BitVec.ofBool eos) ++ data

/-- `IN_ITEM[8:0]` of an input item (30_encoding.md R60). -/
def InItem.toWord (it : InItem) : ItemWord :=
  BitVec.ofBool it.eos ++ it.data

/-- The input item of a word: every word is one (30_encoding.md R60). -/
def InItem.ofWord (w : ItemWord) : InItem :=
  { eos := w.getLsbD 8, data := w.extractLsb' 0 8 }

/-- `OUT_ITEM[8:0]` of an output item (30_encoding.md R61): `END = 1` goes with data bits 0. -/
def OutItem.toWord : OutItem → ItemWord
  | .data b => BitVec.ofBool false ++ b
  | .endSeq => 0x100#9

/-- The output item of a word, if it is a legal one (30_encoding.md R61). -/
def OutItem.ofWord? (w : ItemWord) : Option OutItem :=
  if outWordOk w then some (if w.getLsbD 8 then .endSeq else .data (w.extractLsb' 0 8)) else none

end Sys2Proof
end

