-- ==== Sys2Proof/Machine/Operands.lean ====
section
/-! DEFINITION. The two constant tables and the values an operation computes from its operand, the accumulator and the
held digit. All are exact numbers (00_scope.md R10): nothing here is cut to a width. -/

namespace Sys2Proof.Machine

/-- `ROM_ALPHA[i] = ALPHABET[i]` (20_memory.md R41). Every index the block forms is 0..90 (R44), where a legal
configuration has an entry. The value past the table is never read (log entry 12). -/
def romAlpha (c : Config) (i : Nat) : Byte :=
  (c.alphabet[i]?).getD 0

/-- The sentinel as the table stores it: 91 (20_memory.md R43, log entry 14). -/
def sent : Digit := 91

/-- `ROM_INV[b]` (20_memory.md R42): the index of `b` in the alphabet, or the sentinel. -/
def romInv (c : Config) (b : Byte) : Digit :=
  match c.alphabet.findIdx? (fun a => a == b) with
  | some i => BitVec.ofNat 7 i
  | none => sent

/-- The table entry is a digit: any entry 91..127 is read as the sentinel (20_memory.md R43). -/
def isDigit (e : Digit) : Bool :=
  decide (e.toNat < 91)

/-- `v | (x << n)`: the bits of `x` at offset `n`, least significant first (20_memory.md R46). -/
def orAt (v x n : Nat) : Nat :=
  v ||| (x <<< n)

/-- `IS13(v)`, the width predicate both directions share (30_encoding.md R67, 90_conflicts.md C1). -/
def is13 (v : Nat) : Bool :=
  decide ((v &&& 8191) > 88)

/-- The width of a group or of a digit pair (30_encoding.md R67). -/
def groupWidth (v : Nat) : Nat :=
  if is13 v then 13 else 14

/-- The value of the group at the low end of the accumulator (30_encoding.md R68). -/
def groupKey (v : Nat) : Nat :=
  if is13 v then v &&& 8191 else v &&& 16383

/-- The digit written first (20_memory.md R47). -/
def lowDigit (v : Nat) : Nat :=
  v % 91

/-- The digit written second (20_memory.md R47). -/
def highDigit (v : Nat) : Nat :=
  v / 91

/-- `pair_value` of a first and a second digit (20_memory.md R47). -/
def pairValue (d0 d1 : Nat) : Nat :=
  d0 + d1 * 91

/-- `trunc_8` (00_scope.md R9). -/
def lowByte (v : Nat) : Byte :=
  BitVec.ofNat 8 v

end Sys2Proof.Machine
end

