-- ==== Sys2Proof/Machine/Flags.lean ====
section
/-! DEFINITION. The conditions that decide which flags and registers an operation writes (10_state.md R29,
42_interface_control.md R166). The block has no arithmetic flag. -/

namespace Sys2Proof.Machine

/-- ENC_BYTE forms a group when the accumulator holds more than 13 valid bits (40_encoder.md R100). -/
def formsGroup (nbits : Nat) : Bool :=
  decide (nbits > 13)

/-- ENC_EOS emits when any valid bit is left, whatever their value (40_encoder.md R102, 91_not_in_source.md N7). -/
def flushEmits (nbits : Nat) : Bool :=
  decide (nbits > 0)

/-- The final short group takes two symbols (40_encoder.md R102, 30_encoding.md R70). -/
def flushNeedsTwo (nbits acc : Nat) : Bool :=
  decide (nbits > 7) || decide (acc > 90)

/-- The drain takes a second byte when more than 7 bits are left (41_decoder.md R134). -/
def drainsSecond (nbits : Nat) : Bool :=
  decide (nbits > 7)

end Sys2Proof.Machine
end

