-- ==== Sys2Proof/Machine/State.lean ====
section
/-! DEFINITION. The state of one instance with its two ports and its host, the ways a step can end, and reset. -/

namespace Sys2Proof.Machine

/-- What the host does next (42_interface_control.md R161, R162, R165). Each action lands between two micro-operations,
since a micro-operation is atomic (20_memory.md R50). The host's coming actions stand in `State.host`, one a step
(DESIGN CHOICE, log entry 4). -/
inductive HostAct where
  /-- Offer an input item, after those already offered (R162). -/
  | offer (it : InItem)
  /-- Request the next output item: start a NEXT (R161). -/
  | request
  /-- Drive the reset input to a level (R160, R162). While it is high, RESET runs in every step, whatever the host's action
  in that step, so no assertion is lost (log entry 17). -/
  | setRst (level : Bool)
  /-- Do nothing while the block runs for one step (R165). -/
  | micro
  /-- Change the parameters of the live instance: refused (60_exceptions.md R208 d). -/
  | reconfigure (c : Config)
  /-- An action of a second host on this instance: refused (60_exceptions.md R208 c). -/
  | secondHost
deriving DecidableEq, Repr

/-- One instance, elaborated for the parameters `cfg`, with its ports and its host. -/
structure State where
  /-- `DIR`, `ALPHABET`, `ACC_W`: fixed at elaboration, written by nothing (10_state.md R26, log entry 1). -/
  cfg     : Config
  /-- `ACC`, an unsigned register of `cfg.accW` bits (10_state.md R21). A number, as its width is a parameter (log entry 3). -/
  acc     : Nat
  /-- `NBITS` (10_state.md R22). -/
  nbits   : Count
  /-- `PEND_V` (10_state.md R23). -/
  pendV   : Bool
  /-- `PEND` (10_state.md R23). -/
  pend    : Byte
  /-- `FD_V` (10_state.md R24). An encoder has no such register, and there it stays false (log entry 10). -/
  fdV     : Bool
  /-- `FD` (10_state.md R24). An encoder has no such register, and there it stays 0 (log entry 10). -/
  fd      : Digit
  /-- `DONE` (10_state.md R25). -/
  done    : Bool
  /-- The level of the reset input `rst` (42_interface_control.md R162). -/
  rst     : Bool
  /-- The items the host offers and the block has not taken, the head first: `in_valid` says that there is one, and
  `in_item` is the head (42_interface_control.md R162, log entry 5). -/
  inq     : List InItem
  /-- A NEXT is outstanding: started by `out_req`, ended by the item that answers it (42_interface_control.md R161). -/
  nextReq : Bool
  /-- The output item stream, first item first: `Emit` appends one item (00_scope.md R11, log entry 6). -/
  outs    : List OutItem
  /-- The host's coming actions: the model's own field (log entry 4). -/
  host    : List HostAct
deriving DecidableEq, Repr

/-- The hardware has no fault: no micro-operation raises an exception and there are no cause codes (60_exceptions.md
R200, 93_implementation_defined.md "No behaviour in this spec is treated as `fault`"). So nothing raises one, and no
step ever ends in one (safe, log entry 19). -/
inductive Fault where
deriving DecidableEq, Repr

/-- Runs and configurations the spec does not describe (60_exceptions.md R208). Each is safe: no claim about such a run
can be proved. -/
inductive Refusal where
  /-- Raised by an arm of `exec` whose instruction has no meaning yet. There is none. Safe. -/
  | notModelled (mnemonic : String)
  /-- Raised by every meaning and by `step`: the configuration is not legal (60_exceptions.md R208 a). Safe. -/
  | illFormedConfig
  /-- Raised by every meaning: the state breaks 10_state.md R31 (R34, 60_exceptions.md R208 b). Safe. -/
  | brokenInvariant
  /-- Raised by every meaning: the selection procedure does not pick this micro-operation here (30_encoding.md R63,
  log entry 15). `step` never meets it. Safe. -/
  | notSelected
  /-- Raised by `step` at the host's request while a NEXT is outstanding (42_interface_control.md R171,
  60_exceptions.md R208 c). Safe. -/
  | secondNext
  /-- Raised by `step` at an action of a second host (42_interface_control.md R171, 60_exceptions.md R208 c). Safe. -/
  | twoHosts
  /-- Raised by `step` at a change of the parameters (10_state.md R26, 60_exceptions.md R208 d). Safe. -/
  | configChange
  /-- Raised by `step` when no row of the operation map matches. It never happens (30_encoding.md R65). Safe. -/
  | noOperation
deriving DecidableEq, Repr

/-- An instance with the given parameters right after it is created: every field of 10_state.md R32 at its reset value,
no item offered, no NEXT outstanding, nothing emitted (log entry 13). -/
def State.fresh (c : Config) : State :=
  { cfg := c, acc := 0, nbits := 0, pendV := false, pend := 0, fdV := false, fd := 0, done := false,
    rst := false, inq := [], nextReq := false, outs := [], host := [] }

/-- The machine right after reset, with the default parameters (10_state.md R32, log entry 2). -/
def State.reset : State :=
  State.fresh Config.default

end Sys2Proof.Machine
end

