-- ==== Sys2Proof/Machine/Ops.lean ====
section
/-! DEFINITION. The named operations over the registers and the ports, the invariants of 10_state.md R31, the selection
procedure of 30_encoding.md R63, and the one shape every meaning has. The block takes no exception (60_exceptions.md
R200, R203), so there is no exception entry here and no return from one. -/

namespace Sys2Proof.Machine

/-! ### Register writes -/

/-- `ACC <- v`, cut to the register's width (00_scope.md R9, 10_state.md R21). -/
def State.writeAcc (s : State) (v : Nat) : State :=
  { s with acc := v % 2 ^ s.cfg.accW }

/-- `NBITS <- v`, cut to 5 bits (10_state.md R22). -/
def State.writeNbits (s : State) (v : Nat) : State :=
  { s with nbits := BitVec.ofNat 5 v }

/-- `PEND <- b; PEND_V <- 1` (10_state.md R23). -/
def State.setPend (s : State) (b : Byte) : State :=
  { s with pend := b, pendV := true }

/-- `PEND_V <- 0`: `PEND` keeps its value (40_encoder.md R103, 41_decoder.md R136). -/
def State.clearPendV (s : State) : State :=
  { s with pendV := false }

/-- `FD <- e; FD_V <- 1` (41_decoder.md R132). -/
def State.setFd (s : State) (e : Digit) : State :=
  { s with fd := e, fdV := true }

/-- `FD_V <- 0`: `FD` keeps its value (41_decoder.md R133, R135). -/
def State.clearFdV (s : State) : State :=
  { s with fdV := false }

/-- `DONE <- 1` (10_state.md R25). -/
def State.setDone (s : State) : State :=
  { s with done := true }

/-! ### Ports -/

/-- `Take()`: consume the head item of the input stream (00_scope.md R11). -/
def State.take (s : State) : State :=
  { s with inq := s.inq.tail }

/-- `Emit(item)`: append the item to the output stream. It answers the outstanding NEXT, which completes
(00_scope.md R11, 42_interface_control.md R161, R164). -/
def State.emit (s : State) (item : OutItem) : State :=
  { s with outs := s.outs ++ [item], nextReq := false }

/-! ### What may run -/

/-- The registers are ones that an ENC_BYTE or an ENC_EOS that sets `PEND_V` can leave: I-d of 10_state.md R31 read off
the registers (DEDUCED, log entry 9). ENC_EOS leaves `DONE` and any symbol. ENC_BYTE leaves at most 8 bits, and it leaves
none only above a 14-bit group, whose high digit is 0 or 90. -/
def State.encPendOk (s : State) : Bool :=
  s.cfg.alphabet.contains s.pend
    && (s.done
      || (decide (s.nbits.toNat ≤ 8)
        && (s.nbits != 0 || s.pend == romAlpha s.cfg 0 || s.pend == romAlpha s.cfg 90)))

/-- The bits `q` are the ones above the first byte of a digit pair, `r` of them left after the second byte: either of
some 13-bit pair, which is at least 89, or of some 14-bit pair, whose low 13 bits are at most 88
(30_encoding.md R68, 41_decoder.md R133, R134). -/
def abovePairByte (q r : Nat) : Bool :=
  (decide (r ≤ 4) && decide (89 >>> (5 - r) ≤ q)) || (decide (r ≤ 5) && decide (q % 2 ^ (7 + r) ≤ 88 >>> (6 - r)))

/-- The registers are ones that a DEC_SYM that sets `PEND_V` can leave: I-d of 10_state.md R31 read off the registers
(DEDUCED, log entry 9). `FD` is not asked for: it may hold any value while `FD_V = 0` (93_implementation_defined.md I5). -/
def State.decPendOk (s : State) : Bool :=
  !s.fdV && abovePairByte (s.pend.toNat + s.acc * 256) s.nbits.toNat

/-- The state meets 10_state.md R31, I-a to I-e, with the absent registers of an encoder at their fixed values
(log entries 9 and 10). -/
def State.r31 (s : State) : Bool :=
  match s.cfg.dir with
  | .enc =>
    decide (s.nbits.toNat ≤ 13) && decide (s.acc < 2 ^ s.nbits.toNat)
      && (!s.done || (s.acc == 0 && s.nbits == 0))
      && !s.fdV && s.fd == 0
      && (!s.pendV || s.encPendOk)
  | .dec =>
    decide (s.nbits.toNat ≤ 7) && decide (s.acc < 2 ^ s.nbits.toNat)
      && (!s.fdV || decide (s.fd.toNat ≤ 90))
      && (!s.pendV || !s.done)
      && (!s.done || (s.acc == 0 && s.nbits == 0 && !s.fdV && !s.pendV))
      && (!s.pendV || s.decPendOk)

/-- The encoder's micro-operation or the decoder's, by `DIR`. -/
def State.byDir (s : State) (e d : Instr) : Instr :=
  match s.cfg.dir with
  | .enc => e
  | .dec => d

/-- The selection procedure (30_encoding.md R63), with the gate of 42_interface_control.md R161: outside reset a
micro-operation runs only while a NEXT is outstanding. `none` says that no micro-operation runs: the block is idle, or
waits for an input item (42_interface_control.md R163). -/
def State.select (s : State) : Option Instr :=
  if s.rst then some .reset
  else if !s.nextReq then none
  else if s.pendV then some (s.byDir .encEmit .decEmit)
  else if s.done then some (s.byDir .encEnd .decEnd)
  else match s.inq with
    | [] => none
    | it :: _ =>
      if it.eos then some (s.byDir .encEos .decEos)
      else some (s.byDir (.encByte it.data) (.decSym it.data))

/-- The one shape of a meaning: refuse what the spec gives no meaning (60_exceptions.md R208 a and b, and a
micro-operation the selection does not pick), and else answer the state the rule gives. -/
def guarded (i : Instr) (s : State) (t : State) : Host.Outcome State Fault Refusal :=
  if s.cfg.wf = false then .refused .illFormedConfig
  else if s.r31 = false then .refused .brokenInvariant
  else if s.select ≠ some i then .refused .notSelected
  else .next t

end Sys2Proof.Machine
end

