-- ==== Sys2Proof/Machine/Control.lean ====
section
/-! DEFINITION. The control micro-operation RESET (42_interface_control.md R160). -/

namespace Sys2Proof.Machine

/-- Every register at its reset value (10_state.md R32), and an outstanding NEXT abandoned. The parameters, the items
not yet taken and the items already emitted stay (42_interface_control.md R160). -/
def clearRegisters (s : State) : State :=
  { s with acc := 0, nbits := 0, pendV := false, pend := 0, fdV := false, fd := 0, done := false, nextReq := false }

/-- RESET (42_interface_control.md R160). -/
def execReset (s : State) : Host.Outcome State Fault Refusal :=
  guarded .reset s (clearRegisters s)

end Sys2Proof.Machine
end

