-- ==== Sys2Proof/Machine/Decoder.lean ====
section
/-! DEFINITION. The decoder's micro-operations (41_decoder.md R130 to R137). -/

namespace Sys2Proof.Machine

/-- One byte leaves the low end of `ACC` (41_decoder.md R134). -/
def dropByte (s : State) : State :=
  (s.writeAcc (s.acc >>> 8)).writeNbits (s.nbits.toNat - 8)

/-- The drain after a digit pair: one byte emitted, and a second buffered if more than 7 bits are left
(41_decoder.md R134). -/
def drain (s : State) : State :=
  let t := dropByte (s.emit (.data (lowByte (s.acc &&& 255))))
  if drainsSecond t.nbits.toNat then dropByte (t.setPend (lowByte (t.acc &&& 255))) else t

/-- The pair of the held digit and `e` goes above the bits already held, and the first-digit register is emptied
(41_decoder.md R133). -/
def absorbPair (e : Digit) (s : State) : State :=
  ((s.writeAcc (orAt s.acc (pairValue s.fd.toNat e.toNat) s.nbits.toNat)).writeNbits
    (s.nbits.toNat + groupWidth (pairValue s.fd.toNat e.toNat))).clearFdV

/-- What DEC_SYM does with the table entry of the byte taken: SKIP, FIRST or PAIR (41_decoder.md R130 to R133). -/
def decSymEffect (e : Digit) (s : State) : State :=
  if isDigit e then
    if s.fdV then drain (absorbPair e s) else s.setFd e
  else s

/-- DEC_SYM (41_decoder.md R130). -/
def execDecSym (c : Byte) (s : State) : Host.Outcome State Fault Refusal :=
  guarded (.decSym c) s (decSymEffect (romInv s.cfg c) s.take)

/-- The byte a held first digit completes (41_decoder.md R135). -/
def flushDigit (s : State) : State :=
  if s.fdV then s.emit (.data (lowByte (orAt s.acc s.fd.toNat s.nbits.toNat))) else s

/-- The last lines of DEC_EOS: the canonical done state (41_decoder.md R135, decision D13). -/
def decFinish (s : State) : State :=
  (((s.writeAcc 0).writeNbits 0).clearFdV).setDone

/-- DEC_EOS (41_decoder.md R135). The item's data bits are ignored. -/
def execDecEos (s : State) : Host.Outcome State Fault Refusal :=
  guarded .decEos s (decFinish (flushDigit s.take))

/-- DEC_EMIT (41_decoder.md R136). -/
def execDecEmit (s : State) : Host.Outcome State Fault Refusal :=
  guarded .decEmit s (s.emit (.data s.pend)).clearPendV

/-- DEC_END (41_decoder.md R137): the END item, and no register changes. -/
def execDecEnd (s : State) : Host.Outcome State Fault Refusal :=
  guarded .decEnd s (s.emit .endSeq)

end Sys2Proof.Machine
end

