-- ==== Sys2Proof/Machine/Encoder.lean ====
section
/-! DEFINITION. The encoder's micro-operations (40_encoder.md R100 to R104). -/

namespace Sys2Proof.Machine

/-- The first lines of ENC_BYTE: the byte goes above the bits already held, and the count grows by 8
(40_encoder.md R100, 20_memory.md R46). -/
def absorbByte (b : Byte) (s : State) : State :=
  (s.writeAcc (orAt s.acc b.toNat s.nbits.toNat)).writeNbits (s.nbits.toNat + 8)

/-- The group of ENC_BYTE: taken from the low end of `ACC`, its low digit's symbol emitted, its high digit's symbol
buffered (40_encoder.md R100, R101). -/
def takeGroup (s : State) : State :=
  (((s.writeAcc (s.acc >>> groupWidth s.acc)).writeNbits (s.nbits.toNat - groupWidth s.acc)).emit
    (.data (romAlpha s.cfg (lowDigit (groupKey s.acc))))).setPend (romAlpha s.cfg (highDigit (groupKey s.acc)))

/-- What ENC_BYTE does once the item is taken (40_encoder.md R100). -/
def encByteEffect (b : Byte) (s : State) : State :=
  if formsGroup (absorbByte b s).nbits.toNat then takeGroup (absorbByte b s) else absorbByte b s

/-- ENC_BYTE (40_encoder.md R100). -/
def execEncByte (b : Byte) (s : State) : Host.Outcome State Fault Refusal :=
  guarded (.encByte b) s (encByteEffect b s.take)

/-- The final short group (40_encoder.md R102, 30_encoding.md R70). -/
def flushGroup (s : State) : State :=
  if flushEmits s.nbits.toNat then
    if flushNeedsTwo s.nbits.toNat s.acc then
      (s.emit (.data (romAlpha s.cfg (lowDigit s.acc)))).setPend (romAlpha s.cfg (highDigit s.acc))
    else s.emit (.data (romAlpha s.cfg (lowDigit s.acc)))
  else s

/-- The last lines of ENC_EOS: the canonical done state (40_encoder.md R102, decision D13). -/
def encFinish (s : State) : State :=
  ((s.writeAcc 0).writeNbits 0).setDone

/-- ENC_EOS (40_encoder.md R102). The item's data bits are ignored. -/
def execEncEos (s : State) : Host.Outcome State Fault Refusal :=
  guarded .encEos s (encFinish (flushGroup s.take))

/-- ENC_EMIT (40_encoder.md R103). -/
def execEncEmit (s : State) : Host.Outcome State Fault Refusal :=
  guarded .encEmit s (s.emit (.data s.pend)).clearPendV

/-- ENC_END (40_encoder.md R104): the END item, and no register changes. -/
def execEncEnd (s : State) : Host.Outcome State Fault Refusal :=
  guarded .encEnd s (s.emit .endSeq)

end Sys2Proof.Machine
end

