-- ==== Sys2Proof/Machine/Dispatch.lean ====
section
/-! DEFINITION. The meaning of every micro-operation. -/

namespace Sys2Proof.Machine

def exec (i : Instr) (s : State) : Host.Outcome State Fault Refusal :=
  match i with
  | .reset => Sys2Proof.Machine.execReset s
  | .encEmit => Sys2Proof.Machine.execEncEmit s
  | .encEnd => Sys2Proof.Machine.execEncEnd s
  | .encEos => Sys2Proof.Machine.execEncEos s
  | .encByte b => Sys2Proof.Machine.execEncByte b s
  | .decEmit => Sys2Proof.Machine.execDecEmit s
  | .decEnd => Sys2Proof.Machine.execDecEnd s
  | .decEos => Sys2Proof.Machine.execDecEos s
  | .decSym c => Sys2Proof.Machine.execDecSym c s

end Sys2Proof.Machine
end

