-- ==== Sys2Proof/Machine/Fetch.lean ====
section
/-! DEFINITION. Forming the selector word of the next micro-operation (30_encoding.md R62, R63), and putting a given
word where it is formed from. -/

namespace Sys2Proof.Machine

/-- What the block finds before a micro-operation. -/
inductive Fetch where
  /-- No NEXT is outstanding and reset is not asserted: the block is idle (42_interface_control.md R161, R165). -/
  | idle
  /-- The NEXT needs an input item and none is offered: the block waits (42_interface_control.md R163). -/
  | wait
  /-- The selector word of the micro-operation to run. -/
  | word (w : Sel)
deriving DecidableEq, Repr

/-- `SEL[12:0]` (30_encoding.md R62). Bits 8..0 are the head item's where R63 asks for it, and else not sampled: here 0. -/
def State.formSel (s : State) (item : Option InItem) : Sel :=
  match item with
  | some it => packSel s.rst s.cfg.dir.bit s.done s.pendV it.eos it.data
  | none => packSel s.rst s.cfg.dir.bit s.done s.pendV false 0

/-- The selector word, with the input item sampled only when the selection procedure asks for it (30_encoding.md R63). -/
def State.fetch (s : State) : Fetch :=
  if s.rst then .word (s.formSel none)
  else if !s.nextReq then .idle
  else if s.pendV || s.done then .word (s.formSel none)
  else match s.inq with
    | [] => .wait
    | it :: _ => .word (s.formSel (some it))

/-- The coming host actions with one step left to the block before them. With no action coming the block runs anyway. -/
def grantStep : List HostAct → List HostAct
  | [] => []
  | l => .micro :: l

/-- A NEXT outstanding, reset not asserted, and the direction given: what the rows of one elaboration have in common. -/
def State.placeRun (s : State) (d : Dir) : State :=
  { s with cfg := { s.cfg with dir := d }, rst := false, nextReq := true, host := grantStep s.host }

/-- The state in which the selection procedure picks the micro-operation: exactly the bits its row samples are set
(30_encoding.md R62, R64), the `DIR` bit by elaborating for that direction. With `PEND_V` an encoder gets a symbol into
`PEND`, where nothing was pending, as it would else not be a state of 10_state.md R31 (log entry 11). -/
def State.placeInstr (s : State) (w : Sel) : Instr → State
  | .reset     => { s with rst := true, host := grantStep s.host }
  | .encEmit   => { s.placeRun .enc with pendV := true, pend := if s.pendV then s.pend else romAlpha s.cfg 0 }
  | .encEnd    => { s.placeRun .enc with pendV := false, done := true }
  | .encEos    => { s.placeRun .enc with pendV := false, done := false, inq := ⟨true, selData w⟩ :: s.inq }
  | .encByte b => { s.placeRun .enc with pendV := false, done := false, inq := ⟨false, b⟩ :: s.inq }
  | .decEmit   => { s.placeRun .dec with pendV := true }
  | .decEnd    => { s.placeRun .dec with pendV := false, done := true }
  | .decEos    => { s.placeRun .dec with pendV := false, done := false, inq := ⟨true, selData w⟩ :: s.inq }
  | .decSym c  => { s.placeRun .dec with pendV := false, done := false, inq := ⟨false, c⟩ :: s.inq }

/-- The state whose next step forms the selector word `w`. A number that is no selector word leaves the state alone. -/
def State.placeWord (s : State) (w : Nat) : State :=
  match decodeWord w with
  | .ok i => s.placeInstr (BitVec.ofNat 13 w) i
  | .error _ => s

end Sys2Proof.Machine
end

