-- ==== Sys2Proof/Machine/Block.lean ====
section
/-! DEFINITION. One step of the block, and one action of its host. -/

namespace Sys2Proof.Machine

/-- One micro-operation, or none: idle and waiting change nothing (42_interface_control.md R161, R163, R165). -/
def blockStep (s : State) : Host.Outcome State Fault Refusal :=
  match s.fetch with
  | .idle => .next s
  | .wait => .next s
  | .word w =>
    match decodeSel w with
    | .ok i => exec i s
    | .error _ => .refused .noOperation

/-- What an action of the host does by itself (42_interface_control.md R161, R162). `micro` does nothing: it leaves the
step to the block. `setRst` only drives the level: that a level lowered again by the next action has run a RESET is
`actionStep`'s part (log entry 17). What R208 c and d say a model refuses is refused. -/
def hostStep (a : HostAct) (s : State) : Host.Outcome State Fault Refusal :=
  match a with
  | .offer it => .next { s with inq := s.inq ++ [it] }
  | .request => if s.nextReq then .refused .secondNext else .next { s with nextReq := true }
  | .setRst level => .next { s with rst := level }
  | .micro => .next s
  | .reconfigure c => if c = s.cfg then .next s else .refused .configChange
  | .secondHost => .refused .twoHosts

/-- The action leaves the step to the block (log entry 4). -/
def HostAct.leavesStep : HostAct → Bool
  | .micro         => true
  | .offer _       => false
  | .request       => false
  | .setRst _      => false
  | .reconfigure _ => false
  | .secondHost    => false

/-- The block runs in a step with this host action: when the action leaves the step to it, and in any case while reset is
asserted. So every assertion of reset is followed by a RESET before anything else happens, even when the host lowers the
level with its very next action (70_reset_and_hazards.md R220 b, 60_exceptions.md R202). How many RESETs run while the
level is high is the model's choice: one a step (DESIGN CHOICE, log entry 17). -/
def State.runsWith (s : State) (a : HostAct) : Bool :=
  s.rst || a.leavesStep

/-- The host's action after what the block did in the same step. -/
def thenHost (a : HostAct) (o : Host.Outcome State Fault Refusal) : Host.Outcome State Fault Refusal :=
  match o with
  | .next t => hostStep a t
  | .fault f => .fault f
  | .refused r => .refused r

/-- A step with a host action: the block first, if it runs, and then the action. -/
def actionStep (a : HostAct) (s : State) : Host.Outcome State Fault Refusal :=
  if s.runsWith a then thenHost a (blockStep s) else hostStep a s

/-- One step of the instance with its host: with the host's next action if one is coming, and else of the block alone
(log entry 4). An ill-formed configuration is refused (60_exceptions.md R208 a). -/
def stepOnce (s : State) : Host.Outcome State Fault Refusal :=
  if s.cfg.wf = false then .refused .illFormedConfig
  else match s.host with
    | [] => blockStep s
    | a :: rest => actionStep a { s with host := rest }

end Sys2Proof.Machine
end

