-- ==== Sys2Proof/Machine/Step.lean ====
section
/-! DEFINITION. The step function, and the state that is about to run a given selector word. -/

namespace Sys2Proof.Machine

/-- One step: one host action, one micro-operation, or an idle or waiting block (log entries 4 and 7). -/
def step (s : State) : Host.Outcome State Fault Refusal :=
  stepOnce s

/-- The state whose very next step runs the micro-operation of the selector word `w` (log entry 11). The table gives
every row its whole 13-bit word, so the number of bits is not needed. -/
def State.withFetchWord (s : State) (_nbits w : Nat) : State :=
  s.placeWord w

end Sys2Proof.Machine
end

