-- ==== Sys2Proof/Machine/System.lean ====
section
/-! DEFINITION. Any number of instances side by side (10_state.md R33, 60_exceptions.md R206, log entry 18). -/

namespace Sys2Proof.Machine

/-- Instance `k` takes one step, and the others stand still. `none` says that there is no such instance or that its
step is refused. -/
def systemStep (k : Nat) (sys : List State) : Option (List State) :=
  match sys[k]? with
  | some s =>
    match step s with
    | .next t => some (sys.set k t)
    | .fault _ => none
    | .refused _ => none
  | none => none

end Sys2Proof.Machine
end

