-- ==== Sys2Proof/Machine/Trace.lean ====
section
/-! DEFINITION. The written form of micro-operations, selector words and output items (30_encoding.md R73). -/

namespace Sys2Proof

/-- The mnemonic of the operation map (30_encoding.md R64). -/
def Instr.mnemonic : Instr → String
  | .reset     => "RESET"
  | .encEmit   => "ENC_EMIT"
  | .encEnd    => "ENC_END"
  | .encEos    => "ENC_EOS"
  | .encByte _ => "ENC_BYTE"
  | .decEmit   => "DEC_EMIT"
  | .decEnd    => "DEC_END"
  | .decEos    => "DEC_EOS"
  | .decSym _  => "DEC_SYM"

/-- One hexadecimal digit. -/
def hexDigit (n : Nat) : Char :=
  Char.ofNat (if n < 10 then 48 + n else 55 + n)

/-- A byte as `0x..`. -/
def hexByte (b : Byte) : List Char :=
  ['0', 'x', hexDigit (b.toNat / 16), hexDigit (b.toNat % 16)]

/-- The operand of a micro-operation, if it takes one (30_encoding.md R66, R73). -/
def Instr.operand? : Instr → Option Byte
  | .reset     => none
  | .encEmit   => none
  | .encEnd    => none
  | .encEos    => none
  | .encByte b => some b
  | .decEmit   => none
  | .decEnd    => none
  | .decEos    => none
  | .decSym c  => some c

/-- A micro-operation as a trace writes it, its operand byte in the `0x..` form (30_encoding.md R73). -/
def Instr.asm (i : Instr) : List Char :=
  i.mnemonic.toList ++
    (match i.operand? with
     | some b => ' ' :: hexByte b
     | none => [])

/-- A selector word as a trace writes it: `SEL=0b` and its 13 bits, bit 12 first. -/
def selText (w : Sel) : List Char :=
  "SEL=0b".toList ++ (List.range 13).map (fun k => if w.getLsbD (12 - k) then '1' else '0')

/-- An output item as a trace writes it. -/
def OutItem.text : OutItem → List Char
  | .data b => hexByte b
  | .endSeq => "END".toList

/-- One line of a trace: the micro-operation, its selector word, and the output item if it emits one. -/
def traceLine (i : Instr) (out : Option OutItem) : List Char :=
  i.asm ++ "    ; ".toList ++ selText (encode i) ++
    (match out with
     | some o => " -> ".toList ++ o.text
     | none => [])

end Sys2Proof
end

