-- ==== Sys2Proof/Machine/Ports.lean ====
section
/-! DEFINITION. The port signals of 42_interface_control.md R162, read off the state at the transaction level. What the
outputs show in a step that a host action uses is the model's choice: the block does not run in it unless reset is
asserted, so they are low (DESIGN CHOICE, log entry 22). -/

namespace Sys2Proof.Machine

/-- `in_valid`: the host offers an input item. -/
def State.inValid (s : State) : Bool :=
  !s.inq.isEmpty

/-- `in_item`: the offered item. -/
def State.inItem (s : State) : Option ItemWord :=
  s.inq.head?.map InItem.toWord

/-- The micro-operation calls `Take()` (the column "input taken" of 30_encoding.md R64). -/
def takesInput : Instr → Bool
  | .reset     => false
  | .encEmit   => false
  | .encEnd    => false
  | .encEos    => true
  | .encByte _ => true
  | .decEmit   => false
  | .decEnd    => false
  | .decEos    => true
  | .decSym _  => true

/-- The block runs in the coming step: no host action comes first, or the coming one leaves it the step, or reset is
asserted. -/
def State.blockRuns (s : State) : Bool :=
  match s.host with
  | [] => true
  | a :: _ => s.runsWith a

/-- `in_ready`: asserted only while the micro-operation the block runs now calls `Take()`. Low in a step that a host action
uses (log entry 22). -/
def State.inReady (s : State) : Bool :=
  match s.select with
  | some i => s.blockRuns && takesInput i
  | none => false

/-- The item the block emits in the coming step. There is none in a step that a host action uses (log entry 22). -/
def State.answer (s : State) : Option OutItem :=
  match s.blockRuns, blockStep s with
  | true, .next t => t.outs[s.outs.length]?
  | true, .fault _ => none
  | true, .refused _ => none
  | false, _ => none

/-- `out_valid`: the block answers the outstanding NEXT now. -/
def State.outValid (s : State) : Bool :=
  s.answer.isSome

/-- `out_item`: the answer. -/
def State.outItem (s : State) : Option ItemWord :=
  s.answer.map OutItem.toWord

end Sys2Proof.Machine
end

