-- ==== Sys2Proof/Machine/Reference.lean ====
section
/-! DEFINITION. The source's own per-pull algorithms as functions from lists to lists (40_encoder.md R105, 41_decoder.md
R138): what the block's micro-operations together must compute. Nothing of the machine calls them. -/

namespace Sys2Proof.Machine

/-- The encoder's algorithm from an accumulator `acc` with `n` valid bits: the source's steps 2 to 4 as 40_encoder.md
R100 and R102 quote them. -/
def encodeRef (c : Config) : Nat → Nat → List Byte → List Byte
  | acc, n, [] =>
    if n = 0 then []
    else if n ≤ 7 ∧ acc ≤ 90 then [romAlpha c (acc % 91)]
    else [romAlpha c (acc % 91), romAlpha c (acc / 91)]
  | acc, n, b :: bs =>
    let a := acc ||| (b.toNat <<< n)
    if n + 8 ≤ 13 then encodeRef c a (n + 8) bs
    else if a % 8192 > 88 then
      romAlpha c (a % 8192 % 91) :: romAlpha c (a % 8192 / 91) :: encodeRef c (a / 8192) (n + 8 - 13) bs
    else
      romAlpha c (a % 16384 % 91) :: romAlpha c (a % 16384 / 91) :: encodeRef c (a / 16384) (n + 8 - 14) bs

/-- The widths of the groups the encoder's algorithm forms, first group first (30_encoding.md R72, `w_1..w_G`). -/
def groupWidthsRef : Nat → Nat → List Byte → List Nat
  | _, _, [] => []
  | acc, n, b :: bs =>
    let a := acc ||| (b.toNat <<< n)
    if n + 8 ≤ 13 then groupWidthsRef a (n + 8) bs
    else groupWidth a :: groupWidthsRef (a / 2 ^ groupWidth a) (n + 8 - groupWidth a) bs

/-- The accumulator and the count the encoder's algorithm ends with: the final short group (30_encoding.md R70, `a`, `t`). -/
def finalGroupRef : Nat → Nat → List Byte → Nat × Nat
  | acc, n, [] => (acc, n)
  | acc, n, b :: bs =>
    let a := acc ||| (b.toNat <<< n)
    if n + 8 ≤ 13 then finalGroupRef a (n + 8) bs
    else finalGroupRef (a / 2 ^ groupWidth a) (n + 8 - groupWidth a) bs

/-- The digit of a symbol byte, if it is one (20_memory.md R42). -/
def digitOf? (c : Config) (b : Byte) : Option Nat :=
  c.alphabet.findIdx? (fun a => a == b)

/-- The bits a digit pair carries (30_encoding.md R67). -/
def pairWidth (pv : Nat) : Nat :=
  if pv % 8192 > 88 then 13 else 14

/-- The decoder's algorithm from an accumulator `acc` with `n` valid bits and perhaps a first digit: the source's steps
2 to 6 as 41_decoder.md R130 to R135 quote them. -/
def decodeRef (c : Config) : Nat → Nat → Option Nat → List Byte → List Byte
  | acc, n, fd, [] =>
    match fd with
    | none => []
    | some d => [BitVec.ofNat 8 (acc ||| (d <<< n))]
  | acc, n, fd, x :: xs =>
    match digitOf? c x with
    | none => decodeRef c acc n fd xs
    | some e =>
      match fd with
      | none => decodeRef c acc n (some e) xs
      | some d =>
        let pv := d + e * 91
        let a := acc ||| (pv <<< n)
        let m := n + pairWidth pv
        if m < 16 then BitVec.ofNat 8 a :: decodeRef c (a / 256) (m - 8) none xs
        else BitVec.ofNat 8 a :: BitVec.ofNat 8 (a / 256) :: decodeRef c (a / 65536) (m - 16) none xs

end Sys2Proof.Machine
end

