-- ==== Sys2Proof/Machine/Stream.lean ====
section
/-! DEFINITION. The pseudo-instructions NEXT, ENCODE and DECODE as drivers of the step function (30_encoding.md R74,
42_interface_control.md R161, R167, log entry 16). They are outside the block (00_scope.md R6). -/

namespace Sys2Proof.Machine

/-- NEXT: run the block until it emits, for at most `fuel` steps. The answer is the item emitted and the state after. -/
def nextItem : Nat → State → Option (OutItem × State)
  | 0, _ => none
  | fuel + 1, s =>
    match step s with
    | .next t =>
      match t.outs[s.outs.length]? with
      | some item => some (item, t)
      | none => nextItem fuel t
    | .fault _ => none
    | .refused _ => none

/-- The host requests an item. -/
def State.request (s : State) : State :=
  { s with nextReq := true }

/-- The loop of ENCODE and DECODE: NEXT until END, for at most `fuel` items. A NEXT takes at most one step more than
there are items offered, or one without any. -/
def collect : Nat → State → Option (List Byte)
  | 0, _ => none
  | fuel + 1, s =>
    match nextItem (s.inq.length + 2) s.request with
    | some (.data b, t) => (collect fuel t).map (fun l => b :: l)
    | some (.endSeq, _) => some []
    | none => none

/-- The items of a stream: its bytes, and then one EOS item (42_interface_control.md R167). -/
def streamItems (bs : List Byte) : List InItem :=
  bs.map (fun b => ⟨false, b⟩) ++ [⟨true, 0⟩]

/-- An instance right after reset whose host offers the stream. -/
def State.onStream (c : Config) (bs : List Byte) : State :=
  { State.fresh c with inq := streamItems bs }

/-- ENCODE or DECODE by the direction of `c`, for at most two items out for each byte in, and END. -/
def runStream (c : Config) (bs : List Byte) : Option (List Byte) :=
  collect (2 * bs.length + 4) (State.onStream c bs)

/-- `ENCODE B` (42_interface_control.md R167). -/
def encodeStream (c : Config) (bs : List Byte) : Option (List Byte) :=
  runStream { c with dir := .enc } bs

/-- `DECODE S` (42_interface_control.md R167). -/
def decodeStream (c : Config) (bs : List Byte) : Option (List Byte) :=
  runStream { c with dir := .dec } bs

end Sys2Proof.Machine
end

