-- ==== Sys2Proof/Safety.lean ====
section
/-! DEFINITION. What a safe run is, in the terms the claims use. -/

namespace Sys2Proof.Machine

/-- The next state of an outcome, if it is one. -/
def nextState? (o : Host.Outcome State Fault Refusal) : Option State :=
  match o with
  | .next t => some t
  | .fault _ => none
  | .refused _ => none

/-- A state the spec describes: a legal configuration (00_scope.md R8) and the invariants of 10_state.md R31. -/
abbrev State.Ok (s : State) : Prop :=
  s.cfg.wf = true ∧ s.r31 = true

/-- A NEXT is outstanding on an instance of direction `d` in such a state, and reset is not asserted. -/
abbrev State.Pulled (s : State) (d : Dir) : Prop :=
  s.Ok ∧ s.cfg.dir = d ∧ s.rst = false ∧ s.nextReq = true

/-- The block is about to take `it`, and `rest` is offered after it: the "requires" line of ENC_BYTE, ENC_EOS, DEC_SYM
and DEC_EOS (40_encoder.md R100, R102, 41_decoder.md R130, R135). -/
abbrev State.Takes (s : State) (d : Dir) (it : InItem) (rest : List InItem) : Prop :=
  s.Pulled d ∧ s.pendV = false ∧ s.done = false ∧ s.inq = it :: rest

/-- The block forms a selector word that matches the row with that mask and pattern (30_encoding.md R64), and it decodes
to the micro-operation: the "Encoding" line of an instruction's rule. -/
def State.Forms (s : State) (mask pattern : Sel) (i : Instr) : Prop :=
  ∃ w, s.fetch = .word w ∧ w &&& mask = pattern ∧ decodeSel w = .ok i

/-- Every byte the host can see come out of an encoder is a symbol of the alphabet, and so is the pending one
(40_encoder.md R107). -/
def State.SymbolsOnly (s : State) : Prop :=
  (∀ b, OutItem.data b ∈ s.outs → b ∈ s.cfg.alphabet) ∧ (s.pendV = true → s.pend ∈ s.cfg.alphabet)

/-- The data bytes of a list of output items, in order (70_reset_and_hazards.md R231). -/
def outBytes : List OutItem → List Byte
  | [] => []
  | .data b :: l => b :: outBytes l
  | .endSeq :: l => outBytes l

/-- The bytes offered before the first EOS item. -/
def offeredBytes : List InItem → List Byte
  | [] => []
  | it :: l => if it.eos then [] else it.data :: offeredBytes l

/-- The bytes an encoder still owes the host, if the stream ends where the first EOS item is, or else after the items
offered: the pending one, and what the source's algorithm makes of the rest. -/
def State.encOwes (s : State) : List Byte :=
  (if s.pendV then [s.pend] else []) ++
    (if s.done then [] else encodeRef s.cfg s.acc s.nbits.toNat (offeredBytes s.inq))

/-- The held first digit, if there is one. -/
def State.heldDigit (s : State) : Option Nat :=
  if s.fdV then some s.fd.toNat else none

/-- The bytes a decoder still owes the host, in the same way. -/
def State.decOwes (s : State) : List Byte :=
  (if s.pendV then [s.pend] else []) ++
    (if s.done then [] else decodeRef s.cfg s.acc s.nbits.toNat s.heldDigit (offeredBytes s.inq))

end Sys2Proof.Machine
end

