-- ==== Sys2Proof/Certificates/Slice0/Obligations.lean ====
section
/-! DEFINITION. The statements for the provers. A statement about an instruction names its whole next state: every field
it does not name is as before, so its frame is part of it. The block has no memory (20_memory.md R40). -/

open Sys2Proof Sys2Proof.Machine

/-! ### The encoder's micro-operations -/

/-- 40_encoder.md R100: ENC_BYTE ORs the byte in above the bits held, and when more than 13 bits are then held takes a
13-bit or a 14-bit group from the low end, emits its low digit's symbol and buffers its high digit's. -/
def Obligations.EncByteAbsorbsAByteAndFormsAGroup : Prop :=
  ∀ (s : State) (b : Byte) (rest : List InItem), s.Takes .enc ⟨false, b⟩ rest →
    let n := s.nbits.toNat
    let a := s.acc ||| (b.toNat <<< n)
    s.Forms 0x1F00#13 0x0000#13 (.encByte b) ∧ exec (.encByte b) s = .next
      (if n + 8 ≤ 13 then { s with inq := rest, acc := a, nbits := BitVec.ofNat 5 (n + 8) }
       else if (a &&& 8191) > 88 then
        { s with
          inq := rest, acc := a >>> 13, nbits := BitVec.ofNat 5 (n + 8 - 13)
          pendV := true, pend := romAlpha s.cfg ((a &&& 8191) / 91)
          outs := s.outs ++ [.data (romAlpha s.cfg ((a &&& 8191) % 91))], nextReq := false }
       else
        { s with
          inq := rest, acc := a >>> 14, nbits := BitVec.ofNat 5 (n + 8 - 14)
          pendV := true, pend := romAlpha s.cfg ((a &&& 16383) / 91)
          outs := s.outs ++ [.data (romAlpha s.cfg ((a &&& 16383) % 91))], nextReq := false })

/-- 40_encoder.md R102: ENC_EOS writes no, one or two symbols for the bits left, whatever the item's data bits, and
leaves the canonical done state. -/
def Obligations.EncEosWritesTheFinalShortGroup : Prop :=
  ∀ (s : State) (d : Byte) (rest : List InItem), s.Takes .enc ⟨true, d⟩ rest →
    s.Forms 0x1F00#13 0x0100#13 .encEos ∧ exec .encEos s = .next
      (if s.nbits.toNat = 0 then { s with inq := rest, acc := 0, nbits := 0, done := true }
       else if s.nbits.toNat > 7 ∨ s.acc > 90 then
        { s with
          inq := rest, acc := 0, nbits := 0, done := true
          pendV := true, pend := romAlpha s.cfg (s.acc / 91)
          outs := s.outs ++ [.data (romAlpha s.cfg (s.acc % 91))], nextReq := false }
       else
        { s with
          inq := rest, acc := 0, nbits := 0, done := true
          outs := s.outs ++ [.data (romAlpha s.cfg (s.acc % 91))], nextReq := false })

/-- 40_encoder.md R103: ENC_EMIT emits the pending symbol and takes no input, with `DONE` 0 or 1. -/
def Obligations.EncEmitEmitsThePendingSymbol : Prop :=
  ∀ s : State, s.Pulled .enc → s.pendV = true →
    s.Forms 0x1A00#13 0x0200#13 .encEmit ∧
    exec .encEmit s = .next { s with outs := s.outs ++ [.data s.pend], pendV := false, nextReq := false }

/-- 40_encoder.md R104: ENC_END answers END, takes no input even if an item is offered, and changes no register. -/
def Obligations.EncEndAnswersTheEndOfTheSequence : Prop :=
  ∀ s : State, s.Pulled .enc → s.pendV = false → s.done = true →
    s.Forms 0x1E00#13 0x0400#13 .encEnd ∧ exec .encEnd s = .next { s with outs := s.outs ++ [.endSeq], nextReq := false }

/-! ### The decoder's micro-operations -/

/-- 41_decoder.md R131: DEC_SYM takes a byte outside the alphabet and does nothing else. -/
def Obligations.DecSymSkipsAByteOutsideTheAlphabet : Prop :=
  ∀ (s : State) (c : Byte) (rest : List InItem), s.Takes .dec ⟨false, c⟩ rest → c ∉ s.cfg.alphabet →
    exec (.decSym c) s = .next { s with inq := rest }

/-- 41_decoder.md R132: DEC_SYM holds the digit of a symbol when none is held, and emits nothing. -/
def Obligations.DecSymHoldsAFirstDigit : Prop :=
  ∀ (s : State) (c : Byte) (rest : List InItem) (e : Nat), s.Takes .dec ⟨false, c⟩ rest →
    s.cfg.alphabet[e]? = some c → s.fdV = false →
    exec (.decSym c) s = .next { s with inq := rest, fd := BitVec.ofNat 7 e, fdV := true }

/-- 41_decoder.md R133 and R134: DEC_SYM ORs the pair of the held digit and the new one in above the bits held, empties
the first-digit register, emits the low byte, and buffers a second byte if more than 7 bits are then left. -/
def Obligations.DecSymFormsAPairAndDrainsBytes : Prop :=
  ∀ (s : State) (c : Byte) (rest : List InItem) (e : Nat), s.Takes .dec ⟨false, c⟩ rest →
    s.cfg.alphabet[e]? = some c → s.fdV = true →
    let pv := s.fd.toNat + e * 91
    let a := s.acc ||| (pv <<< s.nbits.toNat)
    let m := s.nbits.toNat + (if (pv &&& 8191) > 88 then 13 else 14)
    exec (.decSym c) s = .next
      (if m - 8 > 7 then
        { s with
          inq := rest, acc := (a >>> 8) >>> 8, nbits := BitVec.ofNat 5 (m - 8 - 8), fdV := false
          pendV := true, pend := BitVec.ofNat 8 ((a >>> 8) &&& 255)
          outs := s.outs ++ [.data (BitVec.ofNat 8 (a &&& 255))], nextReq := false }
       else
        { s with
          inq := rest, acc := a >>> 8, nbits := BitVec.ofNat 5 (m - 8), fdV := false
          outs := s.outs ++ [.data (BitVec.ofNat 8 (a &&& 255))], nextReq := false })

/-- 41_decoder.md R135: DEC_EOS emits the byte a held digit completes, or drops the bits left, and leaves the canonical
done state. -/
def Obligations.DecEosCompletesAHeldDigitOrDropsTheRest : Prop :=
  ∀ (s : State) (d : Byte) (rest : List InItem), s.Takes .dec ⟨true, d⟩ rest →
    s.Forms 0x1F00#13 0x0900#13 .decEos ∧ exec .decEos s = .next
      (if s.fdV = true then
        { s with
          inq := rest, acc := 0, nbits := 0, fdV := false, done := true
          outs := s.outs ++ [.data (BitVec.ofNat 8 (s.acc ||| (s.fd.toNat <<< s.nbits.toNat)))], nextReq := false }
       else { s with inq := rest, acc := 0, nbits := 0, done := true })

/-- 41_decoder.md R136: DEC_EMIT emits the pending byte and takes no input. -/
def Obligations.DecEmitEmitsThePendingByte : Prop :=
  ∀ s : State, s.Pulled .dec → s.pendV = true →
    s.Forms 0x1A00#13 0x0A00#13 .decEmit ∧
    exec .decEmit s = .next { s with outs := s.outs ++ [.data s.pend], pendV := false, nextReq := false }

/-- 41_decoder.md R137: DEC_END answers END, takes no input, and changes no register. -/
def Obligations.DecEndAnswersTheEndOfTheSequence : Prop :=
  ∀ s : State, s.Pulled .dec → s.done = true →
    s.Forms 0x1E00#13 0x0C00#13 .decEnd ∧ exec .decEnd s = .next { s with outs := s.outs ++ [.endSeq], nextReq := false }

/-! ### Reset -/

/-- 42_interface_control.md R160: RESET, selected whatever else the state holds, and run from a state the spec describes
(60_exceptions.md R208 b), sets every register to its reset value,
takes and emits nothing, and abandons an outstanding NEXT. The parameters stay. -/
def Obligations.ResetClearsEveryRegisterAndAbandonsTheNext : Prop :=
  ∀ s : State, s.rst = true →
    s.Forms 0x1000#13 0x1000#13 .reset ∧
    (s.Ok → exec .reset s = .next
      { s with
        acc := 0, nbits := 0, pendV := false, pend := 0, fdV := false, fd := 0, done := false, nextReq := false })

/-- 10_state.md R32: the value of every register when an instance is created, for every choice of the parameters, and
after RESET. -/
def Obligations.EveryRegisterHasItsResetValue : Prop :=
  let cleared := fun t : State =>
    t.acc = 0 ∧ t.nbits = 0 ∧ t.pendV = false ∧ t.pend = 0 ∧ t.fdV = false ∧ t.fd = 0 ∧ t.done = false
  (∀ c : Config, cleared (State.fresh c)) ∧ ∀ s t : State, exec .reset s = .next t → cleared t

/-- 70_reset_and_hazards.md R220, R227: RESET leaves the same registers as a new instance of the same parameters has.
That the ports' own fields stay is the model's choice (log entries 5, 6 and 13). -/
def Obligations.ResetGivesTheStateOfAFreshStream : Prop :=
  ∀ s t : State, exec .reset s = .next t →
    t = { State.fresh s.cfg with rst := true, inq := s.inq, outs := s.outs, host := s.host }

/-- 10_state.md R31 at reset, for every legal choice of the parameters. `State.reset` itself is one of them (log entry 2). -/
def Obligations.ResetStateMeetsTheInvariant : Prop :=
  (∀ c : Config, c.wf = true → (State.fresh c).Ok ∧ (State.fresh c).SymbolsOnly) ∧ State.reset.Ok

/-- 70_reset_and_hazards.md R220 b, 60_exceptions.md R202: no assertion of reset is lost. In a step that begins with
reset asserted, RESET runs whatever the host does in that step, and a host that raises the level and lowers it with its
very next action still resets the instance. That a host action lands after the RESET of its step is the model's choice
(log entry 17). -/
def Obligations.NoAssertionOfResetIsLost : Prop :=
  let cleared := fun t : State =>
    t.acc = 0 ∧ t.nbits = 0 ∧ t.pendV = false ∧ t.pend = 0 ∧ t.fdV = false ∧ t.fd = 0 ∧ t.done = false
  (∀ s t : State, s.rst = true → step s = .next t →
    cleared t ∧ t.outs = s.outs ∧ s.inq <+: t.inq ∧ (t.nextReq = true → s.host = .request :: t.host)) ∧
  (∀ (s : State) (rest : List HostAct), s.Ok → s.rst = false → s.host = .setRst true :: .setRst false :: rest →
    ∃ t u, step s = .next t ∧ step t = .next u ∧ cleared u ∧ u.nextReq = false ∧ u.rst = false ∧
      u.inq = s.inq ∧ u.outs = s.outs ∧ u.host = rest)

/-! ### The invariants -/

/-- 10_state.md R31, which the spec marks as derived: every step keeps I-a to I-e (the registers' part of I-d) and the
legal configuration. -/
def Obligations.EveryStepKeepsTheRegisterInvariant : Prop :=
  ∀ s t : State, s.Ok → step s = .next t → t.Ok

/-- 10_state.md R31 I-d, which the spec marks as derived: after a micro-operation `PEND_V` is set only if that
micro-operation was ENC_BYTE, ENC_EOS or DEC_SYM. -/
def Obligations.OnlyProducersLeaveAPendingItem : Prop :=
  ∀ (i : Instr) (s t : State), exec i s = .next t → t.pendV = true →
    (∃ b, i = .encByte b) ∨ i = .encEos ∨ ∃ c, i = .decSym c

/-- 10_state.md R31 I-d with R34, which the spec marks as derived: with `PEND_V` set, the registers meet R31 exactly when
some ENC_BYTE, ENC_EOS or DEC_SYM leaves them, so I-d's clause on the last micro-operation is checked on the state itself
(log entry 9). A decoder's `FD` may hold any value then (93_implementation_defined.md I5). -/
def Obligations.PendingRegistersAreExactlyThoseAProducerLeaves : Prop :=
  ∀ s : State, s.cfg.wf = true → s.pendV = true →
    (s.r31 = true ↔
      ∃ (i : Instr) (u t : State), ((∃ b, i = .encByte b) ∨ i = .encEos ∨ ∃ c, i = .decSym c) ∧ exec i u = .next t ∧
        t.cfg = s.cfg ∧ t.acc = s.acc ∧ t.nbits = s.nbits ∧ t.pendV = true ∧ t.pend = s.pend ∧ t.fdV = s.fdV ∧
        t.done = s.done ∧ (s.cfg.dir = .enc → t.fd = s.fd))

/-- 10_state.md R31, which the spec marks as derived: inside a micro-operation the count reaches at most 21, the
accumulator stays below 2^21 and holds no stray bit, and a pair leaves at least 13 bits to drain. -/
def Obligations.NothingExceedsTwentyOneBitsInside : Prop :=
  ∀ s : State, s.Ok →
    (s.cfg.dir = .enc → ∀ b : Byte,
      s.nbits.toNat + 8 ≤ 21 ∧ orAt s.acc b.toNat s.nbits.toNat < 2 ^ (s.nbits.toNat + 8) ∧
      orAt s.acc b.toNat s.nbits.toNat < 2 ^ 21) ∧
    (s.cfg.dir = .dec → s.fdV = true → ∀ e ≤ 90,
      let pv := pairValue s.fd.toNat e
      13 ≤ s.nbits.toNat + groupWidth pv ∧ s.nbits.toNat + groupWidth pv ≤ 21 ∧
      orAt s.acc pv s.nbits.toNat < 2 ^ (s.nbits.toNat + groupWidth pv) ∧
      orAt s.acc pv s.nbits.toNat < 2 ^ 21)

/-- 10_state.md R26: no step changes `DIR`, `ALPHABET` or `ACC_W`. -/
def Obligations.NoStepChangesTheConfiguration : Prop :=
  ∀ s t : State, step s = .next t → t.cfg = s.cfg

/-- 10_state.md R21: the accumulator's width is not observable, as long as it is at least 21: a micro-operation does the
same with any other such width. -/
def Obligations.TheAccumulatorWidthIsNotObservable : Prop :=
  ∀ (i : Instr) (s : State) (w : Nat), 21 ≤ w → 21 ≤ s.cfg.accW →
    let widen := fun u : State => { u with cfg := { u.cfg with accW := w } }
    exec i (widen s) =
      match exec i s with
      | .next t => .next (widen t)
      | .fault f => .fault f
      | .refused r => .refused r

/-- 40_encoder.md R107, which the spec marks as derived: an encoder that has emitted, and holds pending, nothing but
symbols of its alphabet goes on so at every step. -/
def Obligations.AnEncoderKeepsToItsAlphabet : Prop :=
  ∀ s t : State, s.Ok → s.cfg.dir = .enc → s.SymbolsOnly → step s = .next t → t.SymbolsOnly

/-- 10_state.md R25 and 70_reset_and_hazards.md R226: once `DONE` is set it stays so without reset, and no input item is
taken: the items offered stay, in order. -/
def Obligations.DoneIsStickyAndTakesNoInput : Prop :=
  ∀ s t : State, s.Ok → s.rst = false → s.done = true → step s = .next t → t.done = true ∧ s.inq <+: t.inq

/-! ### Selection, decoding and the step -/

/-- 30_encoding.md R63 with the gate of 42_interface_control.md R161: the word the block forms decodes to the
micro-operation of the first line that applies, and it forms none when it is idle or waits for an item. -/
def Obligations.TheSelectionFollowsThePriorityOrder : Prop :=
  ∀ s : State,
    let runs := fun i : Instr => ∃ w, s.fetch = .word w ∧ decodeSel w = .ok i
    (s.rst = true → runs .reset) ∧
    (s.rst = false → s.nextReq = false → s.fetch = .idle) ∧
    (s.rst = false → s.nextReq = true →
      (s.pendV = true → runs (if s.cfg.dir = .enc then .encEmit else .decEmit)) ∧
      (s.pendV = false → s.done = true → runs (if s.cfg.dir = .enc then .encEnd else .decEnd)) ∧
      (s.pendV = false → s.done = false →
        (s.inq = [] → s.fetch = .wait) ∧
        (∀ d rest, s.inq = ⟨true, d⟩ :: rest → runs (if s.cfg.dir = .enc then .encEos else .decEos)) ∧
        (∀ d rest, s.inq = ⟨false, d⟩ :: rest → runs (if s.cfg.dir = .enc then .encByte d else .decSym d))))

/-- 30_encoding.md R64 and R65: every selector word matches exactly one row of the operation map, and it decodes to that
row's micro-operation. -/
def Obligations.EveryWordMatchesExactlyOneRow : Prop :=
  ∀ w : Sel, ∃ i : Instr, decodeSel w = .ok i ∧
    (opTable.filter (fun r => r.matchesWord w)).map (fun r => r.mnemonic) = [i.mnemonic]

/-- Decoding the encoding of a micro-operation gives it back, with its operand byte, also through the host's numbering of
the table's words (30_encoding.md R62, R64). -/
def Obligations.DecodeOfEncodeIsTheMicroOperation : Prop :=
  ∀ i : Instr, decodeSel (encode i) = .ok i ∧ decodeTableWord 16 (encode i).toNat = some i

/-- 30_encoding.md R62, R64, in both directions: a word decodes to a micro-operation exactly when it agrees with its
encoding on the bits its row samples and on its operand. -/
def Obligations.DecodingReadsExactlyTheSampledBits : Prop :=
  ∀ (i : Instr) (w : Sel),
    decodeSel w = .ok i ↔ w &&& (sampledMask i ||| (if i.operand?.isSome then 0xFF#13 else 0#13)) = encode i

/-- The selector words of 95_test_vectors.md P1, P2 and P5, written out bit by bit, and the micro-operations they stand
for. -/
def Obligations.TheProgramWordsDecodeAsListed : Prop :=
  decodeSel 0b0000001110100#13 = .ok (.encByte 0x74) ∧ decodeSel 0b0001000000000#13 = .ok .encEmit ∧
  decodeSel 0b0011000000000#13 = .ok .encEmit ∧ decodeSel 0b0000100000000#13 = .ok .encEos ∧
  decodeSel 0b0010000000000#13 = .ok .encEnd ∧ decodeSel 0b0100001100110#13 = .ok (.decSym 0x66) ∧
  decodeSel 0b0101000000000#13 = .ok .decEmit ∧ decodeSel 0b0100100000000#13 = .ok .decEos ∧
  decodeSel 0b0110000000000#13 = .ok .decEnd ∧ decodeSel 0b1001000000000#13 = .ok .reset

/-- A step runs the micro-operation its selector word decodes to (30_encoding.md R62, R63): at once when no host action
is coming, and when the host leaves the block a step (log entry 4). -/
def Obligations.AStepRunsTheDecodedMicroOperation : Prop :=
  ∀ (s : State) (w : Sel) (i : Instr), s.fetch = .word w → decodeSel w = .ok i →
    (s.host = [] → step s = exec i s) ∧
    (∀ rest, s.host = .micro :: rest → step s = exec i { s with host := rest })

/-- When the model gives a micro-operation a meaning: exactly in a state that passes the model's check of 10_state.md R31,
where the selection picks it (30_encoding.md R63, 60_exceptions.md R208). That it is refused elsewhere is the model's
choice (log entry 15), and so is how I-d of R31 is checked on the registers (log entry 9). -/
def Obligations.AMicroOperationRunsExactlyWhenSelected : Prop :=
  ∀ (i : Instr) (s : State), (∃ t, exec i s = .next t) ↔
    s.Ok ∧ ∃ w, (s.fetch = .word w ∧ decodeSel w = .ok i)

/-- 60_exceptions.md R208: what a model refuses, case by case. An accumulator of less than 21 bits is refused too
(00_scope.md R8). The check of R31 reads I-d off the registers (log entry 9), and a host action comes after a RESET of the
same step (log entries 4 and 17). -/
def Obligations.RunsOutsideTheSpecAreRefused : Prop :=
  ∀ s : State,
    (s.cfg.wf = false → step s = .refused .illFormedConfig ∧ ∀ i, exec i s = .refused .illFormedConfig) ∧
    (s.cfg.wf = true →
      (s.r31 = false → ∀ i, exec i s = .refused .brokenInvariant) ∧
      (∀ rest, s.host = .request :: rest → s.rst = false → s.nextReq = true → step s = .refused .secondNext) ∧
      (∀ rest, s.host = .secondHost :: rest → s.rst = false ∨ s.r31 = true → step s = .refused .twoHosts) ∧
      (∀ c rest, s.host = .reconfigure c :: rest → c ≠ s.cfg → s.rst = false ∨ s.r31 = true →
        step s = .refused .configChange) ∧
      (∀ a rest, s.host = a :: rest → s.rst = true → s.r31 = false → step s = .refused .brokenInvariant))

/-- 40_encoder.md R106, 41_decoder.md R139, 60_exceptions.md R200: in a state the spec describes the block's step always
ends in a next state, whatever the item offered. -/
def Obligations.TheBlockNeverFails : Prop :=
  ∀ s : State, s.Ok → s.host = [] → ∃ t, step s = .next t

/-- 42_interface_control.md R163: the block waits exactly while the NEXT needs an item and none is offered, without a
change of state, and an item or reset lifts the wait. -/
def Obligations.WaitingForInputChangesNothing : Prop :=
  ∀ s : State, s.Ok → s.host = [] → s.nextReq = true →
    (s.fetch = .wait ↔ s.rst = false ∧ s.pendV = false ∧ s.done = false ∧ s.inq = []) ∧
    (s.fetch = .wait → step s = .next s ∧ (∀ it, { s with inq := [it] }.fetch ≠ .wait) ∧
      { s with rst := true }.fetch ≠ .wait)

/-- 42_interface_control.md R161, R165, 60_exceptions.md R209: with no NEXT outstanding and reset not asserted the block
keeps its state and takes no input. -/
def Obligations.AnIdleBlockKeepsItsState : Prop :=
  ∀ s : State, s.Ok → s.host = [] → s.rst = false → s.nextReq = false → step s = .next s

/-- 20_memory.md R50: a micro-operation takes the head item or none, by its row, emits at most one item, which answers the
NEXT, and touches nothing of the host's. -/
def Obligations.AMicroOperationTakesAndEmitsAtMostOneItem : Prop :=
  ∀ (i : Instr) (s t : State), exec i s = .next t →
    (takesInput i = true → ∃ it, s.inq = it :: t.inq) ∧
    (takesInput i = false → t.inq = s.inq) ∧
    (t.outs = s.outs ∨ ∃ o, t.outs = s.outs ++ [o] ∧ t.nextReq = false) ∧
    (t.nextReq = false → t.outs = s.outs → i = .reset) ∧
    t.rst = s.rst ∧ t.host = s.host ∧ t.cfg = s.cfg

/-- 42_interface_control.md R162: `in_ready` is high exactly in the steps that take the offered item, and `out_valid`
exactly in those that answer, with the answer on `out_item`. In a step that a host action uses both are low, which is the
model's choice (log entry 22). -/
def Obligations.ThePortsShowWhatTheStepDoes : Prop :=
  ∀ s t : State, s.Ok → step s = .next t →
    (s.inReady = true → ∃ it, s.inq = it :: t.inq) ∧ (s.inReady = false → s.inq <+: t.inq) ∧
    (s.outValid = true → ∃ o, t.outs = s.outs ++ [o] ∧ s.outItem = some o.toWord) ∧
    (s.outValid = false → t.outs = s.outs)

/-- 10_state.md R35, 42_interface_control.md R165: while reset is not asserted, an action of the host other than leaving
the block a step touches no register, no parameter and no emitted item (while it is, see `NoAssertionOfResetIsLost`). How
the actions are scheduled is the model's choice (log entry 4). -/
def Obligations.HostActionsTouchNoRegister : Prop :=
  ∀ (s t : State) (a : HostAct) (rest : List HostAct), s.rst = false → s.host = a :: rest → a ≠ .micro →
    step s = .next t →
    t.cfg = s.cfg ∧ t.acc = s.acc ∧ t.nbits = s.nbits ∧ t.pendV = s.pendV ∧ t.pend = s.pend ∧ t.fdV = s.fdV ∧
    t.fd = s.fd ∧ t.done = s.done ∧ t.outs = s.outs ∧ s.inq <+: t.inq ∧ t.host = rest

/-- 10_state.md R33, 60_exceptions.md R206: a step of one instance changes that instance alone, and depends on it alone
(log entry 18). -/
def Obligations.InstancesShareNoState : Prop :=
  ∀ (k : Nat) (sys sys' : List State), systemStep k sys = some sys' →
    (∀ j, j ≠ k → sys'[j]? = sys[j]?) ∧
    ∃ s t, sys[k]? = some s ∧ step s = .next t ∧ sys'[k]? = some t

/-! ### Tables and the wire format -/

/-- 20_memory.md R42: the inverse table is the inverse of the alphabet and the sentinel elsewhere, and exactly 91 byte
values map to a digit. -/
def Obligations.TheInverseTableInvertsTheAlphabet : Prop :=
  ∀ c : Config, c.wf = true →
    (∀ (i : Nat) (b : Byte), c.alphabet[i]? = some b → (romInv c b).toNat = i) ∧
    (∀ b : Byte, b ∉ c.alphabet → romInv c b = sent) ∧
    (∀ i : Nat, i ≤ 90 → (romInv c (romAlpha c i)).toNat = i) ∧
    ((List.range 256).filter (fun k => isDigit (romInv c (BitVec.ofNat 8 k)))).length = 91

/-- 30_encoding.md R68, which the spec marks as derived: the values of 13-bit and of 14-bit groups, their digits, and
that digits and values up to 8280 determine each other. -/
def Obligations.GroupValuesAndDigitPairsCorrespond : Prop :=
  (∀ v : Nat, (is13 v = true → 89 ≤ groupKey v ∧ groupKey v ≤ 8191) ∧
    (is13 v = false → groupKey v ≤ 88 ∨ (8192 ≤ groupKey v ∧ groupKey v ≤ 8280))) ∧
  (∀ k : Nat, k ≤ 8280 → lowDigit k ≤ 90 ∧ highDigit k ≤ 90 ∧ pairValue (lowDigit k) (highDigit k) = k) ∧
  (∀ d0 d1 : Nat, d0 ≤ 90 → d1 ≤ 90 →
    pairValue d0 d1 ≤ 8280 ∧ lowDigit (pairValue d0 d1) = d0 ∧ highDigit (pairValue d0 d1) = d1)

/-- 30_encoding.md R69, which the spec marks as derived: the decoder's test on the group value gives the encoder's width,
and the value has exactly that width's bits of the accumulator. -/
def Obligations.TheDecoderRecoversTheGroupWidth : Prop :=
  ∀ v : Nat, is13 (groupKey v) = is13 v ∧ groupWidth (groupKey v) = groupWidth v ∧
    groupKey v < 2 ^ groupWidth v ∧ groupKey v = v % 2 ^ groupWidth v

/-- 20_memory.md R46: new bits go above the bits held, least significant first, and disturb none of them. -/
def Obligations.NewBitsGoAboveTheHeldBits : Prop :=
  ∀ v x n k : Nat, v < 2 ^ n → (orAt v x n).testBit k = if k < n then v.testBit k else x.testBit (k - n)

/-- 30_encoding.md R60 and R61: the words of the items. Every 9-bit word is an input item, and an output item's word has
`END` in bit 8, with data bits 0 when it is 1. -/
def Obligations.ItemsAndTheirWordsCorrespond : Prop :=
  (∀ w : ItemWord, (InItem.ofWord w).toWord = w ∧ (InItem.ofWord w).eos = w.getLsbD 8) ∧
  (∀ it : InItem, InItem.ofWord it.toWord = it) ∧
  (∀ o : OutItem, OutItem.ofWord? o.toWord = some o) ∧
  (∀ w : ItemWord, OutItem.ofWord? w = none ↔ w.getLsbD 8 = true ∧ w ≠ 0x100#9) ∧
  OutItem.endSeq.toWord = 0x100#9

/-! ### Progress of a NEXT -/

/-- 40_encoder.md R105, which the spec marks as derived: an encoder NEXT is answered by the second micro-operation at the
latest, when two items or the EOS item are offered, or one item of any kind with at least 6 bits held (so that a byte
forms a group), or none is needed. -/
def Obligations.AnEncoderNextTakesAtMostTwoMicroOperations : Prop :=
  ∀ s : State, s.Pulled .enc → s.host = [] →
    (s.pendV = true ∨ s.done = true ∨ 2 ≤ s.inq.length ∨ (6 ≤ s.nbits.toNat ∧ s.inq ≠ []) ∨ ∃ d, s.inq = [⟨true, d⟩]) →
    ∃ item t, nextItem 2 s = some (item, t)

/-- 41_decoder.md R142, 70_reset_and_hazards.md R230, which the spec marks as derived: a decoder NEXT is answered when the
EOS item is among those offered, however many bytes are skipped before it. -/
def Obligations.ADecoderNextEndsAtTheEosItemAtTheLatest : Prop :=
  ∀ s : State, s.Pulled .dec → s.host = [] → (∃ it ∈ s.inq, it.eos = true) →
    ∃ item t, nextItem (s.inq.length + 1) s = some (item, t)

/-- 40_encoder.md R108, which the spec marks as derived: items that arrive later change nothing in a micro-operation that
is already selected. -/
def Obligations.LaterItemsDoNotChangeASelectedMicroOperation : Prop :=
  ∀ (i : Instr) (s t : State) (later : List InItem), exec i s = .next t →
    exec i { s with inq := s.inq ++ later } = .next { t with inq := t.inq ++ later }

/-! ### The streams -/

/-- 40_encoder.md R105, R108: what an encoder has emitted, with what the source's algorithm says it still owes, stays the
same at every step of the block without reset, from every state the spec describes. -/
def Obligations.EveryEncoderStepFollowsTheSourceAlgorithm : Prop :=
  ∀ s t : State, s.Ok → s.cfg.dir = .enc → s.rst = false → s.host = [] → step s = .next t →
    outBytes t.outs ++ t.encOwes = outBytes s.outs ++ s.encOwes

/-- 41_decoder.md R138: the same of a decoder. -/
def Obligations.EveryDecoderStepFollowsTheSourceAlgorithm : Prop :=
  ∀ s t : State, s.Ok → s.cfg.dir = .dec → s.rst = false → s.host = [] → step s = .next t →
    outBytes t.outs ++ t.decOwes = outBytes s.outs ++ s.decOwes

/-- 42_interface_control.md R167, 40_encoder.md R105: ENCODE ends, and gives what the source's algorithm gives, for every
input and every legal alphabet. -/
def Obligations.EncodeComputesTheSourceAlgorithm : Prop :=
  ∀ (c : Config) (bs : List Byte), c.wf = true → encodeStream c bs = some (encodeRef c 0 0 bs)

/-- 42_interface_control.md R167, 41_decoder.md R138, R139: DECODE ends, and gives what the source's algorithm gives, for
every sequence of bytes, malformed streams included. -/
def Obligations.DecodeComputesTheSourceAlgorithm : Prop :=
  ∀ (c : Config) (bs : List Byte), c.wf = true → decodeStream c bs = some (decodeRef c 0 0 none bs)

/-- 42_interface_control.md R168: `DECODE(ENCODE(B)) = B` for every byte sequence and every legal alphabet. -/
def Obligations.DecodingAnEncodingGivesTheInputBack : Prop :=
  ∀ (c : Config) (bs : List Byte), c.wf = true →
    ∃ symbols, encodeStream c bs = some symbols ∧ decodeStream c symbols = some bs

/-- 42_interface_control.md R169: the empty input, for every legal alphabet. -/
def Obligations.TheEmptyInputGivesTheEmptyOutput : Prop :=
  ∀ c : Config, c.wf = true → encodeStream c [] = some [] ∧ decodeStream c [] = some []

/-- 40_encoder.md R107: every byte ENCODE gives is a symbol of the alphabet. -/
def Obligations.EncodeGivesOnlySymbols : Prop :=
  ∀ (c : Config) (bs symbols : List Byte), c.wf = true → encodeStream c bs = some symbols →
    ∀ b ∈ symbols, b ∈ c.alphabet

/-- 41_decoder.md R140, which the spec marks as derived: a byte outside the alphabet inserted anywhere does not change
what DECODE gives. -/
def Obligations.InsertedNoiseDoesNotChangeDecode : Prop :=
  ∀ (c : Config) (front back : List Byte) (x : Byte), c.wf = true → x ∉ c.alphabet →
    decodeStream c (front ++ x :: back) = decodeStream c (front ++ back)

/-- 30_encoding.md R72 and R70, which the spec marks as derived: with the widths of the groups the encoder's algorithm
forms on the input and the value and count of the final short group, the input's bits are those of the groups and of the
final group, and ENCODE gives two symbols a group and none, one or two for the final one. So 76 bytes give 87 to 94 symbols
(90_conflicts.md C2). -/
def Obligations.TheEncodedLengthFollowsTheGroupWidths : Prop :=
  ∀ (c : Config) (bs symbols : List Byte), c.wf = true → encodeStream c bs = some symbols →
    let widths := groupWidthsRef 0 0 bs
    let a := (finalGroupRef 0 0 bs).1
    let t := (finalGroupRef 0 0 bs).2
    (∀ w ∈ widths, w = 13 ∨ w = 14) ∧ t ≤ 13 ∧ a < 2 ^ t ∧ 8 * bs.length = widths.sum + t ∧
    symbols.length = 2 * widths.length + (if t = 0 then 0 else if t ≤ 7 ∧ a ≤ 90 then 1 else 2) ∧
    (bs.length = 76 → 87 ≤ symbols.length ∧ symbols.length ≤ 94)
end

