-- ==== Sys2Proof/Laws/Alphabet.lean ====
section
/-! SUPPORT. A legal configuration in plain words, and the two tables over it. -/

namespace Sys2Proof.Machine

/-- The bits of `seen` stand for the bytes seen so far. -/
theorem distinctFrom_iff (l : List Byte) (seen : Nat) :
    distinctFrom seen l = true ↔ l.Nodup ∧ ∀ b ∈ l, seen.testBit b.toNat = false := by
  induction l generalizing seen with
  | nil => simp [distinctFrom]
  | cons a l ih =>
    have key : ∀ b : Byte, (seen ||| 1 <<< a.toNat).testBit b.toNat = false ↔
        seen.testBit b.toNat = false ∧ a ≠ b := by
      intro b
      rw [Nat.testBit_or, Bool.or_eq_false_iff, Nat.one_shiftLeft, Nat.testBit_two_pow, decide_eq_false_iff_not]
      exact and_congr_right fun _ => not_congr (BitVec.toNat_inj)
    simp only [distinctFrom, Bool.and_eq_true, Bool.not_eq_true', ih, key, List.nodup_cons, List.mem_cons,
      forall_eq_or_imp]
    constructor
    · rintro ⟨h1, h2, h3⟩
      exact ⟨⟨fun hm => (h3 a hm).2 rfl, h2⟩, h1, fun b hb => (h3 b hb).1⟩
    · rintro ⟨⟨h1, h2⟩, h3, h4⟩
      exact ⟨h3, h2, fun b hb => ⟨h4 b hb, fun e => h1 (e ▸ hb)⟩⟩

theorem distinct_iff_nodup (l : List Byte) : distinctFrom 0 l = true ↔ l.Nodup := by
  simp [distinctFrom_iff]

/-- 00_scope.md R8 in plain words. -/
theorem Config.wf_iff (c : Config) : c.wf = true ↔ c.alphabet.length = 91 ∧ c.alphabet.Nodup ∧ 21 ≤ c.accW := by
  simp [Config.wf, distinct_iff_nodup, and_assoc]

theorem romAlpha_eq {c : Config} {i : Nat} {b : Byte} (h : c.alphabet[i]? = some b) : romAlpha c i = b := by
  simp [romAlpha, h]

/-- Every index a legal configuration's table has is read from the table (20_memory.md R44). -/
theorem romAlpha_getElem? {c : Config} (hc : c.wf = true) {i : Nat} (hi : i < 91) :
    c.alphabet[i]? = some (romAlpha c i) := by
  have hl := ((Config.wf_iff c).1 hc).1
  have h : i < c.alphabet.length := by omega
  simp [romAlpha, List.getElem?_eq_getElem h]

theorem romAlpha_mem {c : Config} (hc : c.wf = true) {i : Nat} (hi : i < 91) : romAlpha c i ∈ c.alphabet :=
  List.mem_of_getElem? (romAlpha_getElem? hc hi)

/-- The search of the inverse table finds the index of an entry (20_memory.md R42). -/
theorem findIdx?_of_getElem? {c : Config} (hc : c.wf = true) {i : Nat} {b : Byte} (h : c.alphabet[i]? = some b) :
    c.alphabet.findIdx? (fun a => a == b) = some i := by
  have hn := ((Config.wf_iff c).1 hc).2.1
  obtain ⟨hi, hb⟩ := List.getElem?_eq_some_iff.1 h
  rw [List.findIdx?_eq_some_iff_getElem]
  refine ⟨hi, by simp [hb], fun j hj => ?_⟩
  simp only [beq_iff_eq]
  intro e
  exact absurd ((List.Nodup.getElem_inj_iff hn).1 (e.trans hb.symm)) (by omega)

theorem findIdx?_of_not_mem {c : Config} {b : Byte} (h : b ∉ c.alphabet) :
    c.alphabet.findIdx? (fun a => a == b) = none := by
  rw [List.findIdx?_eq_none_iff]
  intro x hx
  simpa using fun e : x = b => h (e ▸ hx)

/-- `ROM_INV` at an entry of the alphabet is its digit (20_memory.md R42). -/
theorem romInv_of_getElem? {c : Config} (hc : c.wf = true) {i : Nat} {b : Byte} (h : c.alphabet[i]? = some b) :
    romInv c b = BitVec.ofNat 7 i := by
  simp [romInv, findIdx?_of_getElem? hc h]

/-- `ROM_INV` elsewhere is the sentinel (20_memory.md R42). -/
theorem romInv_of_not_mem {c : Config} {b : Byte} (h : b ∉ c.alphabet) : romInv c b = sent := by
  simp [romInv, findIdx?_of_not_mem h]

theorem index_lt {c : Config} (hc : c.wf = true) {i : Nat} {b : Byte} (h : c.alphabet[i]? = some b) : i < 91 := by
  have hl := ((Config.wf_iff c).1 hc).1
  have := (List.getElem?_eq_some_iff.1 h).1
  omega

theorem romInv_toNat {c : Config} (hc : c.wf = true) {i : Nat} {b : Byte} (h : c.alphabet[i]? = some b) :
    (romInv c b).toNat = i := by
  have := index_lt hc h
  rw [romInv_of_getElem? hc h, BitVec.toNat_ofNat]
  exact Nat.mod_eq_of_lt (by omega)

/-- The decoder sees a digit exactly at the bytes of the alphabet (20_memory.md R42, R43). -/
theorem isDigit_romInv {c : Config} (hc : c.wf = true) (b : Byte) : isDigit (romInv c b) = true ↔ b ∈ c.alphabet := by
  constructor
  · intro h
    by_contra hb
    rw [romInv_of_not_mem hb] at h
    exact absurd h (by decide)
  · intro hb
    obtain ⟨i, hi⟩ := List.mem_iff_getElem?.1 hb
    simpa [isDigit, romInv_toNat hc hi] using index_lt hc hi

end Sys2Proof.Machine
end

