-- ==== Sys2Proof/Laws/Bits.lean ====
section
/-! SUPPORT. Arithmetic of the accumulator: ORing above the valid bits, groups, digits and pairs. -/

namespace Sys2Proof.Machine

/-- ORing above the valid bits is adding there. -/
theorem orAt_eq_add {v n : Nat} (x : Nat) (hv : v < 2 ^ n) : orAt v x n = v + x * 2 ^ n := by
  have h := Nat.shiftLeft_add_eq_or_of_lt hv x
  rw [Nat.shiftLeft_eq] at h
  rw [orAt, Nat.or_comm, Nat.shiftLeft_eq, ← h, Nat.add_comm]

/-- No stray bits after an OR: the invariant I-b of 10_state.md R31 inside an operation. -/
theorem orAt_lt {v n x w : Nat} (hv : v < 2 ^ n) (hx : x < 2 ^ w) : orAt v x n < 2 ^ (n + w) := by
  rw [orAt_eq_add x hv, Nat.pow_add]
  calc v + x * 2 ^ n < 2 ^ n + x * 2 ^ n := by omega
    _ = (x + 1) * 2 ^ n := by ring
    _ ≤ 2 ^ w * 2 ^ n := Nat.mul_le_mul_right _ hx
    _ = 2 ^ n * 2 ^ w := Nat.mul_comm _ _

theorem and_8191 (v : Nat) : v &&& 8191 = v % 8192 := Nat.and_two_pow_sub_one_eq_mod v 13

theorem and_16383 (v : Nat) : v &&& 16383 = v % 16384 := Nat.and_two_pow_sub_one_eq_mod v 14

theorem and_255 (v : Nat) : v &&& 255 = v % 256 := Nat.and_two_pow_sub_one_eq_mod v 8

theorem is13_eq (v : Nat) : is13 v = decide (88 < v % 8192) := by
  simp [is13, and_8191]

theorem groupWidth_eq (v : Nat) : groupWidth v = if 88 < v % 8192 then 13 else 14 := by
  simp [groupWidth, is13_eq]

theorem groupKey_eq (v : Nat) : groupKey v = if 88 < v % 8192 then v % 8192 else v % 16384 := by
  simp [groupKey, is13_eq, and_8191, and_16383]

/-- Whatever the width, a group is the low bits of that width. -/
theorem groupKey_eq_mod (v : Nat) : groupKey v = v % 2 ^ groupWidth v := by
  rw [groupKey_eq, groupWidth_eq]
  split <;> rfl

theorem groupWidth_cases (v : Nat) : groupWidth v = 13 ∨ groupWidth v = 14 := by
  rw [groupWidth_eq]
  split <;> simp

/-- A value of at most `91 * 91 - 1` fits the width the shared predicate gives it (30_encoding.md R68, R69). -/
theorem lt_groupWidth {v : Nat} (h : v ≤ 8280) : v < 2 ^ groupWidth v := by
  rw [groupWidth_eq]
  split
  · have : v % 8192 = v ∨ v = v % 8192 + 8192 := by omega
    norm_num; omega
  · norm_num; omega

theorem pairValue_le {d0 d1 : Nat} (h0 : d0 ≤ 90) (h1 : d1 ≤ 90) : pairValue d0 d1 ≤ 8280 := by
  unfold pairValue; omega

theorem highDigit_lt {v : Nat} (h : v ≤ 8280) : highDigit v < 91 := by
  unfold highDigit; omega

theorem lowDigit_lt (v : Nat) : lowDigit v < 91 :=
  Nat.mod_lt v (by decide)

theorem groupKey_le (v : Nat) : groupKey v ≤ 8280 := by
  rw [groupKey_eq]
  split <;> omega

end Sys2Proof.Machine
end

