-- ==== Sys2Proof/Laws/State.lean ====
section
/-! SUPPORT. What each named update of the state leaves in each field. -/

namespace Sys2Proof.Machine

/-! `writeAcc` -/

@[simp] theorem State.writeAcc_cfg (s : State) (v : Nat) : (s.writeAcc v).cfg = s.cfg := rfl
@[simp] theorem State.writeAcc_acc (s : State) (v : Nat) : (s.writeAcc v).acc = v % 2 ^ s.cfg.accW := rfl
@[simp] theorem State.writeAcc_nbits (s : State) (v : Nat) : (s.writeAcc v).nbits = s.nbits := rfl
@[simp] theorem State.writeAcc_pendV (s : State) (v : Nat) : (s.writeAcc v).pendV = s.pendV := rfl
@[simp] theorem State.writeAcc_pend (s : State) (v : Nat) : (s.writeAcc v).pend = s.pend := rfl
@[simp] theorem State.writeAcc_fdV (s : State) (v : Nat) : (s.writeAcc v).fdV = s.fdV := rfl
@[simp] theorem State.writeAcc_fd (s : State) (v : Nat) : (s.writeAcc v).fd = s.fd := rfl
@[simp] theorem State.writeAcc_done (s : State) (v : Nat) : (s.writeAcc v).done = s.done := rfl
@[simp] theorem State.writeAcc_rst (s : State) (v : Nat) : (s.writeAcc v).rst = s.rst := rfl
@[simp] theorem State.writeAcc_inq (s : State) (v : Nat) : (s.writeAcc v).inq = s.inq := rfl
@[simp] theorem State.writeAcc_nextReq (s : State) (v : Nat) : (s.writeAcc v).nextReq = s.nextReq := rfl
@[simp] theorem State.writeAcc_outs (s : State) (v : Nat) : (s.writeAcc v).outs = s.outs := rfl
@[simp] theorem State.writeAcc_host (s : State) (v : Nat) : (s.writeAcc v).host = s.host := rfl

/-! `writeNbits` -/

@[simp] theorem State.writeNbits_cfg (s : State) (v : Nat) : (s.writeNbits v).cfg = s.cfg := rfl
@[simp] theorem State.writeNbits_acc (s : State) (v : Nat) : (s.writeNbits v).acc = s.acc := rfl
@[simp] theorem State.writeNbits_nbits (s : State) (v : Nat) : (s.writeNbits v).nbits = BitVec.ofNat 5 v := rfl
@[simp] theorem State.writeNbits_pendV (s : State) (v : Nat) : (s.writeNbits v).pendV = s.pendV := rfl
@[simp] theorem State.writeNbits_pend (s : State) (v : Nat) : (s.writeNbits v).pend = s.pend := rfl
@[simp] theorem State.writeNbits_fdV (s : State) (v : Nat) : (s.writeNbits v).fdV = s.fdV := rfl
@[simp] theorem State.writeNbits_fd (s : State) (v : Nat) : (s.writeNbits v).fd = s.fd := rfl
@[simp] theorem State.writeNbits_done (s : State) (v : Nat) : (s.writeNbits v).done = s.done := rfl
@[simp] theorem State.writeNbits_rst (s : State) (v : Nat) : (s.writeNbits v).rst = s.rst := rfl
@[simp] theorem State.writeNbits_inq (s : State) (v : Nat) : (s.writeNbits v).inq = s.inq := rfl
@[simp] theorem State.writeNbits_nextReq (s : State) (v : Nat) : (s.writeNbits v).nextReq = s.nextReq := rfl
@[simp] theorem State.writeNbits_outs (s : State) (v : Nat) : (s.writeNbits v).outs = s.outs := rfl
@[simp] theorem State.writeNbits_host (s : State) (v : Nat) : (s.writeNbits v).host = s.host := rfl

/-! `setPend` -/

@[simp] theorem State.setPend_cfg (s : State) (b : Byte) : (s.setPend b).cfg = s.cfg := rfl
@[simp] theorem State.setPend_acc (s : State) (b : Byte) : (s.setPend b).acc = s.acc := rfl
@[simp] theorem State.setPend_nbits (s : State) (b : Byte) : (s.setPend b).nbits = s.nbits := rfl
@[simp] theorem State.setPend_pendV (s : State) (b : Byte) : (s.setPend b).pendV = true := rfl
@[simp] theorem State.setPend_pend (s : State) (b : Byte) : (s.setPend b).pend = b := rfl
@[simp] theorem State.setPend_fdV (s : State) (b : Byte) : (s.setPend b).fdV = s.fdV := rfl
@[simp] theorem State.setPend_fd (s : State) (b : Byte) : (s.setPend b).fd = s.fd := rfl
@[simp] theorem State.setPend_done (s : State) (b : Byte) : (s.setPend b).done = s.done := rfl
@[simp] theorem State.setPend_rst (s : State) (b : Byte) : (s.setPend b).rst = s.rst := rfl
@[simp] theorem State.setPend_inq (s : State) (b : Byte) : (s.setPend b).inq = s.inq := rfl
@[simp] theorem State.setPend_nextReq (s : State) (b : Byte) : (s.setPend b).nextReq = s.nextReq := rfl
@[simp] theorem State.setPend_outs (s : State) (b : Byte) : (s.setPend b).outs = s.outs := rfl
@[simp] theorem State.setPend_host (s : State) (b : Byte) : (s.setPend b).host = s.host := rfl

/-! `clearPendV` -/

@[simp] theorem State.clearPendV_cfg (s : State) : (s.clearPendV).cfg = s.cfg := rfl
@[simp] theorem State.clearPendV_acc (s : State) : (s.clearPendV).acc = s.acc := rfl
@[simp] theorem State.clearPendV_nbits (s : State) : (s.clearPendV).nbits = s.nbits := rfl
@[simp] theorem State.clearPendV_pendV (s : State) : (s.clearPendV).pendV = false := rfl
@[simp] theorem State.clearPendV_pend (s : State) : (s.clearPendV).pend = s.pend := rfl
@[simp] theorem State.clearPendV_fdV (s : State) : (s.clearPendV).fdV = s.fdV := rfl
@[simp] theorem State.clearPendV_fd (s : State) : (s.clearPendV).fd = s.fd := rfl
@[simp] theorem State.clearPendV_done (s : State) : (s.clearPendV).done = s.done := rfl
@[simp] theorem State.clearPendV_rst (s : State) : (s.clearPendV).rst = s.rst := rfl
@[simp] theorem State.clearPendV_inq (s : State) : (s.clearPendV).inq = s.inq := rfl
@[simp] theorem State.clearPendV_nextReq (s : State) : (s.clearPendV).nextReq = s.nextReq := rfl
@[simp] theorem State.clearPendV_outs (s : State) : (s.clearPendV).outs = s.outs := rfl
@[simp] theorem State.clearPendV_host (s : State) : (s.clearPendV).host = s.host := rfl

/-! `setFd` -/

@[simp] theorem State.setFd_cfg (s : State) (e : Digit) : (s.setFd e).cfg = s.cfg := rfl
@[simp] theorem State.setFd_acc (s : State) (e : Digit) : (s.setFd e).acc = s.acc := rfl
@[simp] theorem State.setFd_nbits (s : State) (e : Digit) : (s.setFd e).nbits = s.nbits := rfl
@[simp] theorem State.setFd_pendV (s : State) (e : Digit) : (s.setFd e).pendV = s.pendV := rfl
@[simp] theorem State.setFd_pend (s : State) (e : Digit) : (s.setFd e).pend = s.pend := rfl
@[simp] theorem State.setFd_fdV (s : State) (e : Digit) : (s.setFd e).fdV = true := rfl
@[simp] theorem State.setFd_fd (s : State) (e : Digit) : (s.setFd e).fd = e := rfl
@[simp] theorem State.setFd_done (s : State) (e : Digit) : (s.setFd e).done = s.done := rfl
@[simp] theorem State.setFd_rst (s : State) (e : Digit) : (s.setFd e).rst = s.rst := rfl
@[simp] theorem State.setFd_inq (s : State) (e : Digit) : (s.setFd e).inq = s.inq := rfl
@[simp] theorem State.setFd_nextReq (s : State) (e : Digit) : (s.setFd e).nextReq = s.nextReq := rfl
@[simp] theorem State.setFd_outs (s : State) (e : Digit) : (s.setFd e).outs = s.outs := rfl
@[simp] theorem State.setFd_host (s : State) (e : Digit) : (s.setFd e).host = s.host := rfl

/-! `clearFdV` -/

@[simp] theorem State.clearFdV_cfg (s : State) : (s.clearFdV).cfg = s.cfg := rfl
@[simp] theorem State.clearFdV_acc (s : State) : (s.clearFdV).acc = s.acc := rfl
@[simp] theorem State.clearFdV_nbits (s : State) : (s.clearFdV).nbits = s.nbits := rfl
@[simp] theorem State.clearFdV_pendV (s : State) : (s.clearFdV).pendV = s.pendV := rfl
@[simp] theorem State.clearFdV_pend (s : State) : (s.clearFdV).pend = s.pend := rfl
@[simp] theorem State.clearFdV_fdV (s : State) : (s.clearFdV).fdV = false := rfl
@[simp] theorem State.clearFdV_fd (s : State) : (s.clearFdV).fd = s.fd := rfl
@[simp] theorem State.clearFdV_done (s : State) : (s.clearFdV).done = s.done := rfl
@[simp] theorem State.clearFdV_rst (s : State) : (s.clearFdV).rst = s.rst := rfl
@[simp] theorem State.clearFdV_inq (s : State) : (s.clearFdV).inq = s.inq := rfl
@[simp] theorem State.clearFdV_nextReq (s : State) : (s.clearFdV).nextReq = s.nextReq := rfl
@[simp] theorem State.clearFdV_outs (s : State) : (s.clearFdV).outs = s.outs := rfl
@[simp] theorem State.clearFdV_host (s : State) : (s.clearFdV).host = s.host := rfl

/-! `setDone` -/

@[simp] theorem State.setDone_cfg (s : State) : (s.setDone).cfg = s.cfg := rfl
@[simp] theorem State.setDone_acc (s : State) : (s.setDone).acc = s.acc := rfl
@[simp] theorem State.setDone_nbits (s : State) : (s.setDone).nbits = s.nbits := rfl
@[simp] theorem State.setDone_pendV (s : State) : (s.setDone).pendV = s.pendV := rfl
@[simp] theorem State.setDone_pend (s : State) : (s.setDone).pend = s.pend := rfl
@[simp] theorem State.setDone_fdV (s : State) : (s.setDone).fdV = s.fdV := rfl
@[simp] theorem State.setDone_fd (s : State) : (s.setDone).fd = s.fd := rfl
@[simp] theorem State.setDone_done (s : State) : (s.setDone).done = true := rfl
@[simp] theorem State.setDone_rst (s : State) : (s.setDone).rst = s.rst := rfl
@[simp] theorem State.setDone_inq (s : State) : (s.setDone).inq = s.inq := rfl
@[simp] theorem State.setDone_nextReq (s : State) : (s.setDone).nextReq = s.nextReq := rfl
@[simp] theorem State.setDone_outs (s : State) : (s.setDone).outs = s.outs := rfl
@[simp] theorem State.setDone_host (s : State) : (s.setDone).host = s.host := rfl

/-! `take` -/

@[simp] theorem State.take_cfg (s : State) : (s.take).cfg = s.cfg := rfl
@[simp] theorem State.take_acc (s : State) : (s.take).acc = s.acc := rfl
@[simp] theorem State.take_nbits (s : State) : (s.take).nbits = s.nbits := rfl
@[simp] theorem State.take_pendV (s : State) : (s.take).pendV = s.pendV := rfl
@[simp] theorem State.take_pend (s : State) : (s.take).pend = s.pend := rfl
@[simp] theorem State.take_fdV (s : State) : (s.take).fdV = s.fdV := rfl
@[simp] theorem State.take_fd (s : State) : (s.take).fd = s.fd := rfl
@[simp] theorem State.take_done (s : State) : (s.take).done = s.done := rfl
@[simp] theorem State.take_rst (s : State) : (s.take).rst = s.rst := rfl
@[simp] theorem State.take_inq (s : State) : (s.take).inq = s.inq.tail := rfl
@[simp] theorem State.take_nextReq (s : State) : (s.take).nextReq = s.nextReq := rfl
@[simp] theorem State.take_outs (s : State) : (s.take).outs = s.outs := rfl
@[simp] theorem State.take_host (s : State) : (s.take).host = s.host := rfl

/-! `emit` -/

@[simp] theorem State.emit_cfg (s : State) (o : OutItem) : (s.emit o).cfg = s.cfg := rfl
@[simp] theorem State.emit_acc (s : State) (o : OutItem) : (s.emit o).acc = s.acc := rfl
@[simp] theorem State.emit_nbits (s : State) (o : OutItem) : (s.emit o).nbits = s.nbits := rfl
@[simp] theorem State.emit_pendV (s : State) (o : OutItem) : (s.emit o).pendV = s.pendV := rfl
@[simp] theorem State.emit_pend (s : State) (o : OutItem) : (s.emit o).pend = s.pend := rfl
@[simp] theorem State.emit_fdV (s : State) (o : OutItem) : (s.emit o).fdV = s.fdV := rfl
@[simp] theorem State.emit_fd (s : State) (o : OutItem) : (s.emit o).fd = s.fd := rfl
@[simp] theorem State.emit_done (s : State) (o : OutItem) : (s.emit o).done = s.done := rfl
@[simp] theorem State.emit_rst (s : State) (o : OutItem) : (s.emit o).rst = s.rst := rfl
@[simp] theorem State.emit_inq (s : State) (o : OutItem) : (s.emit o).inq = s.inq := rfl
@[simp] theorem State.emit_nextReq (s : State) (o : OutItem) : (s.emit o).nextReq = false := rfl
@[simp] theorem State.emit_outs (s : State) (o : OutItem) : (s.emit o).outs = s.outs ++ [o] := rfl
@[simp] theorem State.emit_host (s : State) (o : OutItem) : (s.emit o).host = s.host := rfl

/-! `request` -/

@[simp] theorem State.request_cfg (s : State) : (s.request).cfg = s.cfg := rfl
@[simp] theorem State.request_acc (s : State) : (s.request).acc = s.acc := rfl
@[simp] theorem State.request_nbits (s : State) : (s.request).nbits = s.nbits := rfl
@[simp] theorem State.request_pendV (s : State) : (s.request).pendV = s.pendV := rfl
@[simp] theorem State.request_pend (s : State) : (s.request).pend = s.pend := rfl
@[simp] theorem State.request_fdV (s : State) : (s.request).fdV = s.fdV := rfl
@[simp] theorem State.request_fd (s : State) : (s.request).fd = s.fd := rfl
@[simp] theorem State.request_done (s : State) : (s.request).done = s.done := rfl
@[simp] theorem State.request_rst (s : State) : (s.request).rst = s.rst := rfl
@[simp] theorem State.request_inq (s : State) : (s.request).inq = s.inq := rfl
@[simp] theorem State.request_nextReq (s : State) : (s.request).nextReq = true := rfl
@[simp] theorem State.request_outs (s : State) : (s.request).outs = s.outs := rfl
@[simp] theorem State.request_host (s : State) : (s.request).host = s.host := rfl

/-! `clearRegisters` -/

@[simp] theorem clearRegisters_cfg (s : State) : (clearRegisters s).cfg = s.cfg := rfl
@[simp] theorem clearRegisters_acc (s : State) : (clearRegisters s).acc = 0 := rfl
@[simp] theorem clearRegisters_nbits (s : State) : (clearRegisters s).nbits = 0 := rfl
@[simp] theorem clearRegisters_pendV (s : State) : (clearRegisters s).pendV = false := rfl
@[simp] theorem clearRegisters_pend (s : State) : (clearRegisters s).pend = 0 := rfl
@[simp] theorem clearRegisters_fdV (s : State) : (clearRegisters s).fdV = false := rfl
@[simp] theorem clearRegisters_fd (s : State) : (clearRegisters s).fd = 0 := rfl
@[simp] theorem clearRegisters_done (s : State) : (clearRegisters s).done = false := rfl
@[simp] theorem clearRegisters_rst (s : State) : (clearRegisters s).rst = s.rst := rfl
@[simp] theorem clearRegisters_inq (s : State) : (clearRegisters s).inq = s.inq := rfl
@[simp] theorem clearRegisters_nextReq (s : State) : (clearRegisters s).nextReq = false := rfl
@[simp] theorem clearRegisters_outs (s : State) : (clearRegisters s).outs = s.outs := rfl
@[simp] theorem clearRegisters_host (s : State) : (clearRegisters s).host = s.host := rfl

end Sys2Proof.Machine
end

