-- ==== Sys2Proof/Laws/Exec.lean ====
section
/-! SUPPORT. What every meaning has in common: when it runs, and the state it then answers. -/

namespace Sys2Proof.Machine

/-- The state a micro-operation leaves when it runs: the meaning without its guard. -/
def effect (i : Instr) (s : State) : State :=
  match i with
  | .reset     => clearRegisters s
  | .encEmit   => (s.emit (.data s.pend)).clearPendV
  | .encEnd    => s.emit .endSeq
  | .encEos    => encFinish (flushGroup s.take)
  | .encByte b => encByteEffect b s.take
  | .decEmit   => (s.emit (.data s.pend)).clearPendV
  | .decEnd    => s.emit .endSeq
  | .decEos    => decFinish (flushDigit s.take)
  | .decSym c  => decSymEffect (romInv s.cfg c) s.take

/-- Every meaning is the one guarded shape over its effect. -/
theorem exec_eq_guarded (i : Instr) (s : State) : exec i s = guarded i s (effect i s) := by
  cases i <;> rfl

theorem guarded_eq_next_iff (i : Instr) (s t u : State) :
    guarded i s t = .next u ↔ s.Ok ∧ s.select = some i ∧ u = t := by
  unfold guarded State.Ok
  cases hw : s.cfg.wf <;> cases hr : s.r31 <;> by_cases hs : s.select = some i <;> simp [hs, eq_comm]

theorem guarded_ok {i : Instr} {s t : State} (hs : s.Ok) (hi : s.select = some i) : guarded i s t = .next t :=
  (guarded_eq_next_iff i s t t).2 ⟨hs, hi, rfl⟩

theorem guarded_ne_fault (i : Instr) (s t : State) (f : Fault) : guarded i s t ≠ .fault f :=
  nomatch f

/-- When a micro-operation answers a next state, and which: the inversion lemma of `exec`. -/
theorem exec_eq_next_iff (i : Instr) (s t : State) :
    exec i s = .next t ↔ s.Ok ∧ s.select = some i ∧ t = effect i s := by
  rw [exec_eq_guarded, guarded_eq_next_iff]

theorem exec_ok {i : Instr} {s : State} (hs : s.Ok) (hi : s.select = some i) : exec i s = .next (effect i s) :=
  (exec_eq_next_iff i s _).2 ⟨hs, hi, rfl⟩

theorem exec_illFormed (i : Instr) {s : State} (h : s.cfg.wf = false) : exec i s = .refused .illFormedConfig := by
  rw [exec_eq_guarded, guarded, if_pos h]

/-- The parameters stay in every micro-operation (10_state.md R26). -/
@[simp] theorem effect_cfg (i : Instr) (s : State) : (effect i s).cfg = s.cfg := by
  cases i
  case encEos => simp only [effect, encFinish, flushGroup]; split_ifs <;> rfl
  case encByte b => simp only [effect, encByteEffect]; split_ifs <;> rfl
  case decEos => simp only [effect, decFinish, flushDigit]; split_ifs <;> rfl
  case decSym c =>
    simp only [effect, decSymEffect, drain]
    split_ifs <;> rfl
  all_goals rfl

/-- The coming host actions play no part in a micro-operation. -/
theorem effect_withHost (i : Instr) (s : State) (l : List HostAct) :
    effect i { s with host := l } = { effect i s with host := l } := by
  cases i
  case encEos =>
    simp only [effect, flushGroup, State.take_nbits, State.take_acc]
    by_cases h : flushEmits s.nbits.toNat <;> by_cases h2 : flushNeedsTwo s.nbits.toNat s.acc <;>
      simp only [h, h2, if_true, if_false, Bool.false_eq_true] <;> rfl
  case encByte b =>
    simp only [effect, encByteEffect]
    by_cases h : formsGroup (absorbByte b s.take).nbits.toNat
    · rw [if_pos h, if_pos (by exact h)]; rfl
    · rw [if_neg h, if_neg (by exact h)]; rfl
  case decEos =>
    simp only [effect, flushDigit, State.take_fdV]
    by_cases h : s.fdV <;> simp only [h, if_true, if_false, Bool.false_eq_true] <;> rfl
  case decSym c =>
    have hdrain : ∀ u : State, drain { u with host := l } = { drain u with host := l } := by
      intro u
      simp only [drain]
      by_cases hd : drainsSecond (dropByte (u.emit (.data (lowByte (u.acc &&& 255))))).nbits.toNat
      · rw [if_pos hd, if_pos (by exact hd)]; rfl
      · rw [if_neg hd, if_neg (by exact hd)]; rfl
    simp only [effect, decSymEffect]
    by_cases h : isDigit (romInv s.cfg c) = true
    · rw [if_pos h, if_pos h]
      by_cases hf : s.fdV = true
      · rw [if_pos (by exact hf), if_pos (by exact hf)]; exact hdrain (absorbPair (romInv s.cfg c) s.take)
      · rw [if_neg (by exact hf), if_neg (by exact hf)]; rfl
    · rw [if_neg h, if_neg h]; rfl
  all_goals rfl

end Sys2Proof.Machine
end

