-- ==== Sys2Proof/Laws/Invariant.lean ====
section
/-! SUPPORT. The invariants of 10_state.md R31 in plain words, and the register writes under them: nothing is cut off. -/

namespace Sys2Proof.Machine

theorem r31_enc {s : State} (hd : s.cfg.dir = .enc) :
    s.r31 = true ↔ s.nbits.toNat ≤ 13 ∧ s.acc < 2 ^ s.nbits.toNat ∧ (s.done = true → s.acc = 0 ∧ s.nbits = 0) ∧
      s.fdV = false ∧ s.fd = 0 ∧ (s.pendV = true → s.encPendOk = true) := by
  simp only [State.r31, hd, Bool.and_eq_true, decide_eq_true_eq, Bool.or_eq_true, Bool.not_eq_true', beq_iff_eq, and_assoc]
  cases s.done <;> cases s.pendV <;> simp

theorem r31_dec {s : State} (hd : s.cfg.dir = .dec) :
    s.r31 = true ↔ s.nbits.toNat ≤ 7 ∧ s.acc < 2 ^ s.nbits.toNat ∧ (s.fdV = true → s.fd.toNat ≤ 90) ∧
      (s.pendV = true → s.done = false) ∧
      (s.done = true → s.acc = 0 ∧ s.nbits = 0 ∧ s.fdV = false ∧ s.pendV = false) ∧
      (s.pendV = true → s.decPendOk = true) := by
  simp only [State.r31, hd, Bool.and_eq_true, decide_eq_true_eq, Bool.or_eq_true, Bool.not_eq_true', beq_iff_eq, and_assoc]
  cases s.done <;> cases s.pendV <;> cases s.fdV <;> simp

theorem accW_ge {s : State} (hs : s.Ok) : 21 ≤ s.cfg.accW :=
  ((Config.wf_iff s.cfg).1 hs.1).2.2

/-- A value below 2^21 fits every legal accumulator (10_state.md R21). -/
theorem mod_accW {w v : Nat} (hw : 21 ≤ w) (hv : v < 2 ^ 21) : v % 2 ^ w = v :=
  Nat.mod_eq_of_lt (lt_of_lt_of_le hv (Nat.pow_le_pow_right (by decide) hw))

theorem writeAcc_of_lt {s : State} {v : Nat} (hw : 21 ≤ s.cfg.accW) (hv : v < 2 ^ 21) :
    s.writeAcc v = { s with acc := v } := by
  simp [State.writeAcc, mod_accW hw hv]

/-- A count of at most 21 fits the register `NBITS` (10_state.md R22). -/
theorem count_toNat {n : Nat} (h : n ≤ 21) : (BitVec.ofNat 5 n).toNat = n := by
  rw [BitVec.toNat_ofNat]
  exact Nat.mod_eq_of_lt (by omega)

theorem lt_pow_21 {v n : Nat} (hv : v < 2 ^ n) (hn : n ≤ 21) : v < 2 ^ 21 :=
  lt_of_lt_of_le hv (Nat.pow_le_pow_right (by decide) hn)

end Sys2Proof.Machine
end

