-- ==== Sys2Proof/Laws/Encoder.lean ====
section
/-! SUPPORT. The shared operations of the encoder under the invariants of 10_state.md R31: what each leaves. -/

namespace Sys2Proof.Machine

variable {s : State}

/-- Absorbing a byte: the OR and the count, nothing cut off (40_encoder.md R100). -/
theorem absorbByte_eq (b : Byte) (hw : 21 ≤ s.cfg.accW) (hn : s.nbits.toNat ≤ 13) (ha : s.acc < 2 ^ s.nbits.toNat) :
    absorbByte b s =
      { s with acc := orAt s.acc b.toNat s.nbits.toNat, nbits := BitVec.ofNat 5 (s.nbits.toNat + 8) } := by
  have h := orAt_lt ha b.isLt
  rw [absorbByte, writeAcc_of_lt hw (lt_pow_21 h (by omega))]
  rfl

/-- What is left above a group fits the bits left (10_state.md R31). -/
theorem shiftRight_lt {v m w : Nat} (hv : v < 2 ^ m) (hw : w ≤ m) : v >>> w < 2 ^ (m - w) := by
  rw [Nat.shiftRight_eq_div_pow, Nat.div_lt_iff_lt_mul (Nat.two_pow_pos w), ← Nat.pow_add, Nat.sub_add_cancel hw]
  exact hv

/-- Taking a group: the shift, the count, the two symbols, nothing cut off (40_encoder.md R100). -/
theorem takeGroup_eq (hw : 21 ≤ s.cfg.accW) (hn : s.nbits.toNat ≤ 21) (ha : s.acc < 2 ^ s.nbits.toNat) :
    takeGroup s =
      { s with
        acc := s.acc >>> groupWidth s.acc
        nbits := BitVec.ofNat 5 (s.nbits.toNat - groupWidth s.acc)
        pendV := true
        pend := romAlpha s.cfg (highDigit (groupKey s.acc))
        outs := s.outs ++ [.data (romAlpha s.cfg (lowDigit (groupKey s.acc)))]
        nextReq := false } := by
  have h : s.acc >>> groupWidth s.acc < 2 ^ 21 :=
    lt_of_le_of_lt (Nat.shiftRight_le _ _) (lt_pow_21 ha hn)
  rw [takeGroup, writeAcc_of_lt hw h]
  rfl

/-- The final short group writes no, one or two symbols, and no register but the lookahead (30_encoding.md R70). -/
theorem flushGroup_cases (s : State) :
    (s.nbits.toNat = 0 ∧ flushGroup s = s) ∨
    (0 < s.nbits.toNat ∧ s.nbits.toNat ≤ 7 ∧ s.acc ≤ 90 ∧
      flushGroup s = s.emit (.data (romAlpha s.cfg (lowDigit s.acc)))) ∨
    (0 < s.nbits.toNat ∧ (7 < s.nbits.toNat ∨ 90 < s.acc) ∧
      flushGroup s =
        (s.emit (.data (romAlpha s.cfg (lowDigit s.acc)))).setPend (romAlpha s.cfg (highDigit s.acc))) := by
  by_cases h0 : 0 < s.nbits.toNat
  · by_cases h2 : 7 < s.nbits.toNat ∨ 90 < s.acc
    · exact .inr (.inr ⟨h0, h2, by simp [flushGroup, flushEmits, flushNeedsTwo, h0, h2]⟩)
    · have h2' := not_or.1 h2
      exact .inr (.inl ⟨h0, by omega, by omega, by simp [flushGroup, flushEmits, flushNeedsTwo, h0, h2]⟩)
  · exact .inl ⟨by omega, by simp [flushGroup, flushEmits, h0]⟩

/-- The canonical done state (40_encoder.md R102). -/
theorem encFinish_eq (s : State) : encFinish s = { s with acc := 0, nbits := 0, done := true } := by
  simp [encFinish, State.writeAcc, State.writeNbits, State.setDone]

end Sys2Proof.Machine
end

