-- ==== Sys2Proof/Laws/Decoder.lean ====
section
/-! SUPPORT. The shared operations of the decoder under the invariants of 10_state.md R31: what each leaves. -/

namespace Sys2Proof.Machine

variable {s : State}

/-- Absorbing a pair: the OR, the count and the emptied first digit, nothing cut off (41_decoder.md R133). -/
theorem absorbPair_eq {e : Digit} (hw : 21 ≤ s.cfg.accW) (hn : s.nbits.toNat ≤ 7) (ha : s.acc < 2 ^ s.nbits.toNat)
    (hd : s.fd.toNat ≤ 90) (he : e.toNat ≤ 90) :
    absorbPair e s =
      { s with
        acc := orAt s.acc (pairValue s.fd.toNat e.toNat) s.nbits.toNat
        nbits := BitVec.ofNat 5 (s.nbits.toNat + groupWidth (pairValue s.fd.toNat e.toNat))
        fdV := false } := by
  have h := orAt_lt ha (lt_groupWidth (pairValue_le hd he))
  have hg := groupWidth_cases (pairValue s.fd.toNat e.toNat)
  rw [absorbPair, writeAcc_of_lt hw (lt_pow_21 h (by omega))]
  rfl

/-- The bounds on entry to the drain: 13..21 bits, no stray bit (10_state.md R31). -/
theorem absorbPair_bounds {e : Digit} (hn : s.nbits.toNat ≤ 7) (ha : s.acc < 2 ^ s.nbits.toNat)
    (hd : s.fd.toNat ≤ 90) (he : e.toNat ≤ 90) :
    13 ≤ s.nbits.toNat + groupWidth (pairValue s.fd.toNat e.toNat) ∧
    s.nbits.toNat + groupWidth (pairValue s.fd.toNat e.toNat) ≤ 21 ∧
    orAt s.acc (pairValue s.fd.toNat e.toNat) s.nbits.toNat <
      2 ^ (s.nbits.toNat + groupWidth (pairValue s.fd.toNat e.toNat)) := by
  have hg := groupWidth_cases (pairValue s.fd.toNat e.toNat)
  exact ⟨by omega, by omega, orAt_lt ha (lt_groupWidth (pairValue_le hd he))⟩

theorem dropByte_eq (hw : 21 ≤ s.cfg.accW) (ha : s.acc < 2 ^ 21) :
    dropByte s = { s with acc := s.acc >>> 8, nbits := BitVec.ofNat 5 (s.nbits.toNat - 8) } := by
  rw [dropByte, writeAcc_of_lt hw (lt_of_le_of_lt (Nat.shiftRight_le _ _) ha)]
  rfl

/-- The drain takes one byte out of 13 to 15 bits and two out of 16 to 21 (41_decoder.md R134). -/
theorem drain_cases (hw : 21 ≤ s.cfg.accW) (hn : s.nbits.toNat ≤ 21) (ha : s.acc < 2 ^ s.nbits.toNat) :
    (s.nbits.toNat ≤ 15 ∧ drain s =
      { s with
        acc := s.acc >>> 8, nbits := BitVec.ofNat 5 (s.nbits.toNat - 8)
        outs := s.outs ++ [.data (lowByte (s.acc &&& 255))], nextReq := false }) ∨
    (16 ≤ s.nbits.toNat ∧ drain s =
      { s with
        acc := (s.acc >>> 8) >>> 8, nbits := BitVec.ofNat 5 (s.nbits.toNat - 16)
        pendV := true, pend := lowByte ((s.acc >>> 8) &&& 255)
        outs := s.outs ++ [.data (lowByte (s.acc &&& 255))], nextReq := false }) := by
  have h21 := lt_pow_21 ha hn
  have hc : (BitVec.ofNat 5 (s.nbits.toNat - 8)).toNat = s.nbits.toNat - 8 := count_toNat (by omega)
  have h1 : dropByte (s.emit (.data (lowByte (s.acc &&& 255)))) =
      { s with
        acc := s.acc >>> 8, nbits := BitVec.ofNat 5 (s.nbits.toNat - 8)
        outs := s.outs ++ [.data (lowByte (s.acc &&& 255))], nextReq := false } := dropByte_eq hw h21
  by_cases h : 16 ≤ s.nbits.toNat
  · refine .inr ⟨h, ?_⟩
    have h2 : 7 < s.nbits.toNat - 8 := by omega
    have h3 : s.acc >>> 8 < 2 ^ 21 := lt_of_le_of_lt (Nat.shiftRight_le _ _) h21
    have h4 : s.nbits.toNat - 8 - 8 = s.nbits.toNat - 16 := by omega
    simp only [drain, h1, hc, drainsSecond, h2, decide_true, if_true]
    rw [dropByte_eq (by exact hw) (by exact h3)]
    simp [hc, h4, State.setPend]
  · refine .inl ⟨by omega, ?_⟩
    have h2 : ¬ 7 < s.nbits.toNat - 8 := by omega
    simp only [drain, h1, hc, drainsSecond, h2, decide_false, Bool.false_eq_true, if_false]

/-- The canonical done state (41_decoder.md R135). -/
theorem decFinish_eq (s : State) : decFinish s = { s with acc := 0, nbits := 0, fdV := false, done := true } := by
  simp [decFinish, State.writeAcc, State.writeNbits, State.clearFdV, State.setDone]

/-- SKIP (41_decoder.md R131). -/
theorem decSymEffect_skip {e : Digit} (h : isDigit e = false) (s : State) : decSymEffect e s = s := by
  simp [decSymEffect, h]

/-- FIRST (41_decoder.md R132). -/
theorem decSymEffect_first {e : Digit} (h : isDigit e = true) (hf : s.fdV = false) :
    decSymEffect e s = s.setFd e := by
  simp [decSymEffect, h, hf]

/-- PAIR (41_decoder.md R133). -/
theorem decSymEffect_pair {e : Digit} (h : isDigit e = true) (hf : s.fdV = true) :
    decSymEffect e s = drain (absorbPair e s) := by
  simp [decSymEffect, h, hf]

end Sys2Proof.Machine
end

