-- ==== Sys2Proof/Laws/Pending.lean ====
section
/-! SUPPORT. The registers a producer of a pending item leaves, in plain words, forwards and backwards (I-d of
10_state.md R31, log entry 9). -/

namespace Sys2Proof.Machine

variable {s : State}

/-- The encoder's part of I-d in plain words. -/
theorem encPendOk_iff (s : State) :
    s.encPendOk = true ↔ s.pend ∈ s.cfg.alphabet ∧
      (s.done = true ∨ (s.nbits.toNat ≤ 8 ∧
        (s.nbits ≠ 0 ∨ s.pend = romAlpha s.cfg 0 ∨ s.pend = romAlpha s.cfg 90))) := by
  simp [State.encPendOk, or_assoc]

/-- The decoder's part of I-d in plain words. -/
theorem decPendOk_iff (s : State) :
    s.decPendOk = true ↔ s.fdV = false ∧ abovePairByte (s.pend.toNat + s.acc * 256) s.nbits.toNat = true := by
  simp [State.decPendOk]

/-- The high digit of a 14-bit group is 0 or 90 (30_encoding.md R68). -/
theorem highDigit_of_14 {v : Nat} (h : ¬ 88 < v % 8192) : highDigit (v % 16384) = 0 ∨ highDigit (v % 16384) = 90 := by
  have hm : v % 16384 % 8192 = v % 8192 := Nat.mod_mod_of_dvd v (by decide)
  have hc : v % 16384 / 8192 = 0 ∨ v % 16384 / 8192 = 1 := by omega
  unfold highDigit
  rcases hc with hc | hc <;> omega

/-- The bits above the low byte of held bits and a pair are the pair's bits from there on. -/
theorem orAt_shiftRight_8 {v n : Nat} (pv : Nat) (hv : v < 2 ^ n) (hn : n ≤ 8) : orAt v pv n >>> 8 = pv / 2 ^ (8 - n) := by
  have h8 : 2 ^ 8 = 2 ^ n * 2 ^ (8 - n) := by rw [← Nat.pow_add]; congr 1; omega
  rw [orAt_eq_add pv hv, Nat.shiftRight_eq_div_pow, h8, ← Nat.div_div_eq_div_mul,
    Nat.add_mul_div_right _ _ (Nat.two_pow_pos n), Nat.div_eq_of_lt hv, Nat.zero_add]

/-- What a DEC_SYM that drains two bytes leaves above the first of them. -/
theorem abovePairByte_of_pair {pv n : Nat} (hp : pv ≤ 8280) (hn : n ≤ 7) (h16 : 16 ≤ n + groupWidth pv) :
    abovePairByte (pv / 2 ^ (8 - n)) (n + groupWidth pv - 16) = true := by
  rw [groupWidth_eq] at h16 ⊢
  simp only [abovePairByte, Bool.or_eq_true, Bool.and_eq_true, decide_eq_true_eq, Nat.shiftRight_eq_div_pow]
  split at h16 <;> rename_i hw
  · have hlo : 3 ≤ n := by omega
    simp only [hw, if_true]
    interval_cases n <;> norm_num <;> omega
  · have hlo : 2 ≤ n := by omega
    simp only [hw, if_false]
    interval_cases n <;> norm_num <;> omega

/-- Whatever is accepted there is left by some pair. -/
theorem exists_pair_of_abovePairByte {q r : Nat} (hq : q < 2 ^ (8 + r)) (h : abovePairByte q r = true) :
    ∃ pv n, pv ≤ 8280 ∧ n ≤ 7 ∧ n + groupWidth pv = r + 16 ∧ pv / 2 ^ (8 - n) = q := by
  simp only [abovePairByte, Bool.or_eq_true, Bool.and_eq_true, decide_eq_true_eq, Nat.shiftRight_eq_div_pow] at h
  rcases h with ⟨hr, h⟩ | ⟨hr, h⟩
  · refine ⟨q * 2 ^ (5 - r) + (2 ^ (5 - r) - 1), r + 3, ?_⟩
    rw [groupWidth_eq]
    interval_cases r <;> norm_num at hq h ⊢ <;> (split_ifs <;> omega)
  · refine ⟨q * 2 ^ (6 - r), r + 2, ?_⟩
    rw [groupWidth_eq]
    interval_cases r <;> norm_num at hq h ⊢ <;> (split_ifs <;> omega)

end Sys2Proof.Machine
end

