-- ==== Sys2Proof/Laws/PerInstr.lean ====
section
/-! SUPPORT. Statements for all instructions, one lemma for each constructor. -/

namespace Sys2Proof.Laws.EncodedInItsRow

/-- The word of the micro-operation matches a row of the operation map that carries its mnemonic, and on the bits that
row samples it is the row's pattern (30_encoding.md R64). -/
def Statement (i : Instr) : Prop :=
  ∃ r ∈ opTable, r.mnemonic = i.mnemonic ∧ r.mask = sampledMask i ∧ r.matchesWord (encode i) = true

theorem reset : Statement .reset :=
  ⟨opTable[0], List.getElem_mem _, by decide, by decide, by decide⟩

theorem encEmit : Statement .encEmit :=
  ⟨opTable[1], List.getElem_mem _, by decide, by decide, by decide⟩

theorem encEnd : Statement .encEnd :=
  ⟨opTable[2], List.getElem_mem _, by decide, by decide, by decide⟩

theorem encEos : Statement .encEos :=
  ⟨opTable[3], List.getElem_mem _, by decide, by decide, by decide⟩

theorem encByte (b : Byte) : Statement (.encByte b) :=
  ⟨opTable[4], List.getElem_mem _, by rfl, by rfl, by revert b; decide⟩

theorem decEmit : Statement .decEmit :=
  ⟨opTable[5], List.getElem_mem _, by decide, by decide, by decide⟩

theorem decEnd : Statement .decEnd :=
  ⟨opTable[6], List.getElem_mem _, by decide, by decide, by decide⟩

theorem decEos : Statement .decEos :=
  ⟨opTable[7], List.getElem_mem _, by decide, by decide, by decide⟩

theorem decSym (c : Byte) : Statement (.decSym c) :=
  ⟨opTable[8], List.getElem_mem _, by rfl, by rfl, by revert c; decide⟩

end Sys2Proof.Laws.EncodedInItsRow
end

