-- ==== Sys2Proof/Laws/Select.lean ====
section
/-! SUPPORT. The selection procedure, read backwards and forwards. -/

namespace Sys2Proof.Machine

/-- What is known of a state whose selection is `i`: the "requires" lines of 40_encoder.md, 41_decoder.md and
42_interface_control.md R160. -/
def selectFacts (s : State) : Instr → Prop
  | .reset     => s.rst = true
  | .encEmit   => s.rst = false ∧ s.nextReq = true ∧ s.cfg.dir = .enc ∧ s.pendV = true
  | .encEnd    => s.rst = false ∧ s.nextReq = true ∧ s.cfg.dir = .enc ∧ s.pendV = false ∧ s.done = true
  | .encEos    => s.rst = false ∧ s.nextReq = true ∧ s.cfg.dir = .enc ∧ s.pendV = false ∧ s.done = false ∧
      ∃ d rest, s.inq = ⟨true, d⟩ :: rest
  | .encByte b => s.rst = false ∧ s.nextReq = true ∧ s.cfg.dir = .enc ∧ s.pendV = false ∧ s.done = false ∧
      ∃ rest, s.inq = ⟨false, b⟩ :: rest
  | .decEmit   => s.rst = false ∧ s.nextReq = true ∧ s.cfg.dir = .dec ∧ s.pendV = true
  | .decEnd    => s.rst = false ∧ s.nextReq = true ∧ s.cfg.dir = .dec ∧ s.pendV = false ∧ s.done = true
  | .decEos    => s.rst = false ∧ s.nextReq = true ∧ s.cfg.dir = .dec ∧ s.pendV = false ∧ s.done = false ∧
      ∃ d rest, s.inq = ⟨true, d⟩ :: rest
  | .decSym c  => s.rst = false ∧ s.nextReq = true ∧ s.cfg.dir = .dec ∧ s.pendV = false ∧ s.done = false ∧
      ∃ rest, s.inq = ⟨false, c⟩ :: rest

/-- The inversion lemma of the selection procedure (30_encoding.md R63). -/
theorem select_facts {s : State} {i : Instr} (h : s.select = some i) : selectFacts s i := by
  unfold State.select at h
  cases hr : s.rst <;> cases hn : s.nextReq <;> cases hp : s.pendV <;> cases hd : s.done <;>
    cases hdir : s.cfg.dir <;> rcases hq : s.inq with _ | ⟨⟨_ | _, d⟩, rest⟩ <;>
    simp only [hr, hn, hp, hd, hdir, hq, State.byDir, Bool.not_true, Bool.not_false, if_true,
      Bool.false_eq_true, if_false, reduceCtorEq, Option.some.injEq] at h <;>
    subst h <;> simp [selectFacts, hr, hn, hp, hd, hdir, hq]

/-- And forwards: those facts make the selection. -/
theorem select_of_facts {s : State} {i : Instr} (h : selectFacts s i) : s.select = some i := by
  cases i <;> simp only [selectFacts] at h
  case reset => simp [State.select, h]
  case encEmit => obtain ⟨a, b, c, d⟩ := h; simp [State.select, State.byDir, a, b, c, d]
  case encEnd => obtain ⟨a, b, c, d, e⟩ := h; simp [State.select, State.byDir, a, b, c, d, e]
  case encEos => obtain ⟨a, b, c, d, e, x, r, q⟩ := h; simp [State.select, State.byDir, a, b, c, d, e, q]
  case encByte => obtain ⟨a, b, c, d, e, r, q⟩ := h; simp [State.select, State.byDir, a, b, c, d, e, q]
  case decEmit => obtain ⟨a, b, c, d⟩ := h; simp [State.select, State.byDir, a, b, c, d]
  case decEnd => obtain ⟨a, b, c, d, e⟩ := h; simp [State.select, State.byDir, a, b, c, d, e]
  case decEos => obtain ⟨a, b, c, d, e, x, r, q⟩ := h; simp [State.select, State.byDir, a, b, c, d, e, q]
  case decSym => obtain ⟨a, b, c, d, e, r, q⟩ := h; simp [State.select, State.byDir, a, b, c, d, e, q]

theorem select_iff_facts (s : State) (i : Instr) : s.select = some i ↔ selectFacts s i :=
  ⟨select_facts, select_of_facts⟩

/-- The words the block forms for a head item, decoded. -/
theorem decode_packed_item (d : Byte) :
    decodeSel (packSel false false false false false d) = .ok (.encByte d) ∧
    decodeSel (packSel false true false false false d) = .ok (.decSym d) ∧
    decodeSel (packSel false false false false true d) = .ok .encEos ∧
    decodeSel (packSel false true false false true d) = .ok .decEos := by
  have key : ∀ d : Byte, (decodeSel (packSel false false false false false d)).toOption = some (.encByte d) ∧
      (decodeSel (packSel false true false false false d)).toOption = some (.decSym d) ∧
      (decodeSel (packSel false false false false true d)).toOption = some .encEos ∧
      (decodeSel (packSel false true false false true d)).toOption = some .decEos := by decide +kernel
  have conv : ∀ (e : Except DecodeError Instr) (i : Instr), e.toOption = some i → e = .ok i := by
    intro e i h
    cases e <;> simp [Except.toOption] at h
    rw [h]
  exact ⟨conv _ _ (key d).1, conv _ _ (key d).2.1, conv _ _ (key d).2.2.1, conv _ _ (key d).2.2.2⟩

/-- The selector word the block forms decodes to what the selection procedure picks, and there is none when it picks
nothing: `State.fetch` with `decodeSel` and `State.select` agree. -/
theorem fetch_agrees_select (s : State) :
    (∃ i w, s.select = some i ∧ s.fetch = .word w ∧ decodeSel w = .ok i) ∨
    (s.select = none ∧ (s.fetch = .idle ∨ s.fetch = .wait)) := by
  unfold State.select State.fetch State.formSel State.byDir
  cases hr : s.rst <;> cases hn : s.nextReq <;> cases hp : s.pendV <;> cases hd : s.done <;>
    cases hdir : s.cfg.dir <;> rcases hq : s.inq with _ | ⟨⟨_ | _, d⟩, rest⟩ <;>
    simp [Dir.bit, decode_packed_item] <;> rfl

end Sys2Proof.Machine
end

