-- ==== Sys2Proof/Laws/Step.lean ====
section
/-! SUPPORT. Everything one step can do. -/

namespace Sys2Proof.Machine

/-- The inversion lemma of the block's step: it stands still, or it runs one micro-operation. -/
theorem blockStep_cases {s t : State} (h : blockStep s = .next t) :
    (t = s ∧ (s.fetch = .idle ∨ s.fetch = .wait)) ∨ ∃ i, exec i s = .next t := by
  unfold blockStep at h
  split at h
  · exact .inl ⟨(Host.Outcome.next.inj h).symm, .inl ‹_›⟩
  · exact .inl ⟨(Host.Outcome.next.inj h).symm, .inr ‹_›⟩
  · split at h
    · exact .inr ⟨_, h⟩
    · cases h

/-- The inversion lemma of what a host action does by itself. -/
theorem hostStep_cases {a : HostAct} {s t : State} (h : hostStep a s = .next t) :
    (∃ it, a = .offer it ∧ t = { s with inq := s.inq ++ [it] }) ∨
    (a = .request ∧ s.nextReq = false ∧ t = { s with nextReq := true }) ∨
    (∃ l, a = .setRst l ∧ t = { s with rst := l }) ∨
    (a = .micro ∧ t = s) ∨
    (a = .reconfigure s.cfg ∧ t = s) := by
  cases a with
  | offer it => exact .inl ⟨it, rfl, (Host.Outcome.next.inj h).symm⟩
  | request =>
    cases hn : s.nextReq <;> simp only [hostStep, hn, if_true, Bool.false_eq_true, if_false] at h
    · exact .inr (.inl ⟨rfl, rfl, (Host.Outcome.next.inj h).symm⟩)
    · cases h
  | setRst l => exact .inr (.inr (.inl ⟨l, rfl, (Host.Outcome.next.inj h).symm⟩))
  | micro => exact .inr (.inr (.inr (.inl ⟨rfl, (Host.Outcome.next.inj h).symm⟩)))
  | reconfigure c =>
    by_cases hc : c = s.cfg
    · simp only [hostStep, hc, if_true] at h
      exact .inr (.inr (.inr (.inr ⟨by rw [hc], (Host.Outcome.next.inj h).symm⟩)))
    · simp only [hostStep, hc, if_false] at h; cases h
  | secondHost => cases h

/-- The inversion lemma of a step with a host action: the action alone, or after what the block did. -/
theorem actionStep_cases {a : HostAct} {s t : State} (h : actionStep a s = .next t) :
    (s.runsWith a = false ∧ hostStep a s = .next t) ∨
    (s.runsWith a = true ∧ ∃ u, blockStep s = .next u ∧ hostStep a u = .next t) := by
  unfold actionStep thenHost at h
  split at h
  · split at h
    · exact .inr ⟨‹_›, _, ‹_›, h⟩
    · cases h
    · cases h
  · exact .inl ⟨Bool.eq_false_iff.2 ‹_›, h⟩

/-- The inversion lemma of the step: the block's step, or one with the host's next action. -/
theorem step_cases {s t : State} (h : step s = .next t) :
    s.cfg.wf = true ∧ ((s.host = [] ∧ blockStep s = .next t) ∨
      ∃ a rest, s.host = a :: rest ∧ actionStep a { s with host := rest } = .next t) := by
  cases hw : s.cfg.wf
  · rw [step, stepOnce, if_pos hw] at h; cases h
  · refine ⟨rfl, ?_⟩
    have hn : ¬ (s.cfg.wf = false) := by simp [hw]
    rw [step, stepOnce, if_neg hn] at h
    cases hh : s.host with
    | nil => rw [hh] at h; exact .inl ⟨rfl, h⟩
    | cons a rest => rw [hh] at h; exact .inr ⟨a, rest, rfl, h⟩

theorem step_of_noHost {s : State} (hw : s.cfg.wf = true) (hh : s.host = []) : step s = blockStep s := by
  simp [step, stepOnce, hw, hh]

theorem step_of_host {s : State} {a : HostAct} {rest : List HostAct} (hw : s.cfg.wf = true) (hh : s.host = a :: rest) :
    step s = actionStep a { s with host := rest } := by
  simp [step, stepOnce, hw, hh]

/-- Without reset an action other than `micro` has the step for itself. -/
theorem actionStep_alone {a : HostAct} {s : State} (hr : s.rst = false) (ha : a.leavesStep = false) :
    actionStep a s = hostStep a s := by
  simp [actionStep, State.runsWith, hr, ha]

/-- `micro` leaves the whole step to the block. -/
theorem actionStep_micro (s : State) : actionStep .micro s = blockStep s := by
  simp only [actionStep, State.runsWith, HostAct.leavesStep, Bool.or_true, if_true, thenHost]
  cases h : blockStep s <;> rfl

end Sys2Proof.Machine
end

