-- ==== Sys2Proof/Tests/Slice0.lean ====
section
/-! SUPPORT. Tests of single steps against 95_test_vectors.md (the row's name stands in each docstring), the smoke tests
of the checks, and for every statement of Certificates/Slice0/Obligations.lean that has hypotheses a concrete state that
meets them, one for each clause. -/

namespace Sys2Proof.Tests

open Sys2Proof Sys2Proof.Machine

set_option Elab.async false

/-! ### Helpers -/

/-- The encoder and the decoder with the default alphabet, on which the vectors' symbol bytes rest. -/
def encC : Config := Config.default
def decC : Config := { Config.default with dir := .dec }

/-- A pulled encoder or decoder with the given registers and offered items. -/
def encAt (acc : Nat) (nbits : Count) (inq : List InItem) : State :=
  { State.fresh encC with acc := acc, nbits := nbits, inq := inq, nextReq := true }
def decAt (acc : Nat) (nbits : Count) (inq : List InItem) : State :=
  { State.fresh decC with acc := acc, nbits := nbits, inq := inq, nextReq := true }

/-- The same with a held first digit. -/
def decFd (acc : Nat) (nbits : Count) (fd : Digit) (inq : List InItem) : State :=
  { decAt acc nbits inq with fdV := true, fd := fd }

/-- A data item, and the EOS item. -/
def dat (b : Byte) : InItem := ⟨false, b⟩
def eos : InItem := ⟨true, 0⟩

/-- What a test looks at: `ACC`, `NBITS`, `PEND_V`, `PEND`, the items emitted, and whether a NEXT is outstanding. -/
def seen (t : State) : Nat × Count × Bool × Byte × List OutItem × Bool :=
  (t.acc, t.nbits, t.pendV, t.pend, t.outs, t.nextReq)

/-- An outcome that is a next state with a property, from an evaluation. -/
theorem next_of {o : Host.Outcome State Fault Refusal} {p : State → Bool}
    (h : (nextState? o).any p = true) : ∃ t, o = .next t ∧ p t = true := by
  cases o with
  | next t => exact ⟨t, rfl, by simpa [nextState?] using h⟩
  | fault f => simp [nextState?] at h
  | refused r => simp [nextState?] at h

/-! ### The checks refuse what is ill-formed -/

theorem test_wf_default : Config.default.wf = true := by decide +kernel
theorem test_wf_refuses_90_entries : { encC with alphabet := defaultAlphabet.tail }.wf = false := by decide +kernel
theorem test_wf_refuses_92_entries : { encC with alphabet := 0x20#8 :: defaultAlphabet }.wf = false := by decide +kernel
theorem test_wf_refuses_a_repeated_entry : { encC with alphabet := 0x22#8 :: defaultAlphabet.tail }.wf = false := by
  decide +kernel
theorem test_wf_refuses_a_narrow_accumulator : { encC with accW := 20 }.wf = false := by decide +kernel
theorem test_wf_accepts_21_bits : { encC with accW := 21 }.wf = true := by decide +kernel
theorem test_legalIn_refuses_the_other_direction :
    Instr.legalIn (.decSym 0x66) .enc = false ∧ Instr.legalIn .encEos .dec = false ∧ Instr.legalIn .reset .dec = true := by
  decide
theorem test_outWordOk_refuses_data_in_an_end_item : outWordOk 0x101#9 = false ∧ outWordOk 0x100#9 = true := by decide
theorem test_decodeWord_refuses_a_wide_word : decodeTableWord 16 8192 = none := by decide
theorem test_ill_formed_configuration_is_refused :
    step { State.reset with cfg := { encC with accW := 20 } } = .refused .illFormedConfig := by rfl

/-! ### Every constructor's decoding, from words written out from the patterns of 30_encoding.md R64 -/

/-- `1xxxxxxxxxxxx`, with other bits set. -/
theorem test_decode_reset : decodeSel 0b1011110000001#13 = .ok .reset := by rfl
/-- `00x1xxxxxxxxx`. -/
theorem test_decode_encEmit : decodeSel 0b0011101010101#13 = .ok .encEmit := by rfl
/-- `0010xxxxxxxxx`. -/
theorem test_decode_encEnd : decodeSel 0b0010111111111#13 = .ok .encEnd := by rfl
/-- `00001xxxxxxxx`. -/
theorem test_decode_encEos : decodeSel 0b0000111111111#13 = .ok .encEos := by rfl
/-- `00000dddddddd`. -/
theorem test_decode_encByte : decodeSel 0b0000010000001#13 = .ok (.encByte 0x81) := by rfl
/-- `01x1xxxxxxxxx`. -/
theorem test_decode_decEmit : decodeSel 0b0111110101010#13 = .ok .decEmit := by rfl
/-- `0110xxxxxxxxx`. -/
theorem test_decode_decEnd : decodeSel 0b0110000000001#13 = .ok .decEnd := by rfl
/-- `01001xxxxxxxx`. -/
theorem test_decode_decEos : decodeSel 0b0100100000001#13 = .ok .decEos := by rfl
/-- `01000cccccccc`. -/
theorem test_decode_decSym : decodeSel 0b0100001000001#13 = .ok (.decSym 0x41) := by rfl

/-- A trace line of 95_test_vectors.md P1, with the byte in the `0x..` form of 30_encoding.md R73. -/
theorem test_traceLine :
    traceLine (.encByte 0x65) (some (.data 0x66))
      = "ENC_BYTE 0x65    ; SEL=0b0000001100101 -> 0x66".toList := by decide +kernel

/-- The six entries 20_memory.md R41 says the source fixes, and the four bytes I1 says are no symbols. -/
theorem test_default_alphabet :
    [10, 13, 15, 29, 31, 33].map (romAlpha encC) = [0x4B#8, 0x4E#8, 0x50#8, 0x64#8, 0x66#8, 0x68#8] ∧
    [0x20#8, 0x27#8, 0x2D#8, 0x5C#8].all (fun b => romInv encC b == 91#7) = true ∧ romInv encC 0x22 = 90#7 := by
  decide +kernel

/-! ### One step of each micro-operation -/

/-- EB2. -/
theorem test_encByte_13_bits :
    ∃ t, exec (.encByte 0x65) (encAt 116 8 [dat 0x65]) = .next t ∧
      (seen t == (3, 3, true, 0x50, [.data 0x66], false)) = true := next_of (by decide +kernel)
/-- EB8: the largest 14-bit group, from 21 bits. -/
theorem test_encByte_14_bits :
    ∃ t, exec (.encByte 0x01) (encAt 88 13 [dat 0x01, dat 0x02]) = .next t ∧
      (seen t == (0, 7, true, 0x22, [.data 0x22], false) && t.inq == [dat 0x02]) = true := next_of (by decide +kernel)
/-- EE4. -/
theorem test_encEos_two_symbols :
    ∃ t, exec .encEos (encAt 91 7 [eos]) = .next t ∧
      (seen t == (0, 0, true, 0x42, [.data 0x41], false) && t.done) = true := next_of (by decide +kernel)
/-- EE8: a bit of value 0 is left. -/
theorem test_encEos_one_symbol :
    ∃ t, exec .encEos (encAt 0 1 [⟨true, 0x7F⟩]) = .next t ∧
      (seen t == (0, 0, false, 0, [.data 0x41], false) && t.done) = true := next_of (by decide +kernel)
/-- EM1: the waiting item is not taken. -/
theorem test_encEmit :
    ∃ t, exec .encEmit { encAt 3 3 [dat 0x73] with pendV := true, pend := 0x50 } = .next t ∧
      (seen t == (3, 3, false, 0x50, [.data 0x50], false) && t.inq == [dat 0x73]) = true := next_of (by decide +kernel)
/-- EN1, with the item `'A'` of P5 offered. -/
theorem test_encEnd :
    ∃ t, exec .encEnd { encAt 0 0 [dat 0x41] with done := true } = .next t ∧
      (seen t == (0, 0, false, 0, [.endSeq], false) && t.inq == [dat 0x41]) = true := next_of (by decide +kernel)
/-- DP2. -/
theorem test_decSym_pair :
    ∃ t, exec (.decSym 0x4B) (decFd 5 5 13 [dat 0x4B]) = .next t ∧
      (seen t == (0, 2, true, 0x73, [.data 0x65], false) && !t.fdV) = true := next_of (by decide +kernel)
/-- DP5: the largest pair, up to 21 bits. -/
theorem test_decSym_largest_pair :
    ∃ t, exec (.decSym 0x22) (decFd 127 7 90 [dat 0x22]) = .next t ∧
      (seen t == (16, 5, true, 0x2C, [.data 0x7F], false)) = true := next_of (by decide +kernel)
/-- DE3: the digit's high bits are cut off. -/
theorem test_decEos_truncates :
    ∃ t, exec .decEos (decFd 127 7 90 [eos]) = .next t ∧
      (seen t == (0, 0, false, 0, [.data 0x7F], false) && t.done && !t.fdV) = true := next_of (by decide +kernel)
/-- DE7. -/
theorem test_decEos_completes_a_byte :
    ∃ t, exec .decEos (decFd 31 5 7 [eos]) = .next t ∧
      (seen t == (0, 0, false, 0, [.data 0xFF], false) && t.done) = true := next_of (by decide +kernel)
/-- DM1. -/
theorem test_decEmit :
    ∃ t, exec .decEmit { decAt 0 2 [dat 0x64] with pendV := true, pend := 0x73 } = .next t ∧
      (seen t == (0, 2, false, 0x73, [.data 0x73], false) && t.inq == [dat 0x64]) = true := next_of (by decide +kernel)
/-- DN1. -/
theorem test_decEnd :
    ∃ t, exec .decEnd { decAt 0 0 [] with done := true } = .next t ∧
      (seen t == (0, 0, false, 0, [.endSeq], false) && t.done) = true := next_of (by decide +kernel)
/-- RS1: `'P'` is lost, and the NEXT is abandoned. -/
theorem test_reset :
    ∃ t, exec .reset { encAt 3 3 [dat 0x73] with pendV := true, pend := 0x50, rst := true } = .next t ∧
      (seen t == (0, 0, false, 0, [], false) && t.inq == [dat 0x73]) = true := next_of (by decide +kernel)

/-- RS2. -/
theorem test_reset_decoder :
    ∃ t, exec .reset { decFd 5 5 13 [] with rst := true } = .next t ∧
      (seen t == (0, 0, false, 0, [], false) && !t.fdV && t.fd == 0) = true := next_of (by decide +kernel)

/-- From reset, the word of DEC_SYM `'f'` (P2 line 1) runs as the very next step. -/
theorem test_withFetchWord :
    ∃ t, step (State.reset.withFetchWord 16 0b0100001100110) = .next t ∧
      (t.fdV && t.fd == 31 && t.inq == [] && t.nextReq) = true := next_of (by decide +kernel)

/-! ### Witnesses: the encoder's statements -/

/-- `EncByteAbsorbsAByteAndFormsAGroup`, no group: EB9 (5 + 8 is not more than 13). -/
theorem witness_encByte_no_group :
    (encAt 31 5 [dat 0xFF]).Takes .enc ⟨false, 0xFF⟩ [] ∧
    ∃ t, exec (.encByte 0xFF) (encAt 31 5 [dat 0xFF]) = .next t ∧ (seen t == (8191, 13, false, 0, [], true)) = true :=
  ⟨by decide +kernel, next_of (by decide +kernel)⟩
/-- The same, the smallest 13-bit group: EB6. -/
theorem witness_encByte_key_89 :
    (encAt 89 7 [dat 0x00]).Takes .enc ⟨false, 0x00⟩ [] ∧
    ∃ t, exec (.encByte 0x00) (encAt 89 7 [dat 0x00]) = .next t ∧
      (seen t == (0, 2, true, 0x41, [.data 0x7E], false)) = true :=
  ⟨by decide +kernel, next_of (by decide +kernel)⟩
/-- The same, a 14-bit group: EB7. -/
theorem witness_encByte_key_88 :
    (encAt 88 7 [dat 0x00]).Takes .enc ⟨false, 0x00⟩ [] ∧
    ∃ t, exec (.encByte 0x00) (encAt 88 7 [dat 0x00]) = .next t ∧
      (seen t == (0, 1, true, 0x41, [.data 0x7D], false)) = true :=
  ⟨by decide +kernel, next_of (by decide +kernel)⟩
/-- The same, exactly 14 bits held: EB3 and EB4. -/
theorem witness_encByte_14_bits_held :
    (encAt 0 6 [dat 0x00]).Takes .enc ⟨false, 0x00⟩ [] ∧ (encAt 63 6 [dat 0x01]).Takes .enc ⟨false, 0x01⟩ [] ∧
    (∃ t, exec (.encByte 0x00) (encAt 0 6 [dat 0x00]) = .next t ∧
      (seen t == (0, 0, true, 0x41, [.data 0x41], false)) = true) ∧
    ∃ t, exec (.encByte 0x01) (encAt 63 6 [dat 0x01]) = .next t ∧
      (seen t == (0, 1, true, 0x42, [.data 0x6B], false)) = true :=
  ⟨by decide +kernel, by decide +kernel, next_of (by decide +kernel), next_of (by decide +kernel)⟩

/-- `EncEosWritesTheFinalShortGroup`: EE1, EE3, EE4 and EE6, the boundaries of its three cases. -/
theorem witness_encEos :
    (encAt 0 0 [eos]).Takes .enc ⟨true, 0⟩ [] ∧ (encAt 90 7 [eos]).Takes .enc ⟨true, 0⟩ [] ∧
    (encAt 91 7 [eos]).Takes .enc ⟨true, 0⟩ [] ∧ (encAt 0 8 [eos]).Takes .enc ⟨true, 0⟩ [] ∧
    (∃ t, exec .encEos (encAt 0 0 [eos]) = .next t ∧ (seen t == (0, 0, false, 0, [], true) && t.done) = true) ∧
    (∃ t, exec .encEos (encAt 90 7 [eos]) = .next t ∧
      (seen t == (0, 0, false, 0, [.data 0x22], false)) = true) ∧
    ∃ t, exec .encEos (encAt 0 8 [eos]) = .next t ∧ (seen t == (0, 0, true, 0x41, [.data 0x41], false)) = true :=
  ⟨by decide +kernel, by decide +kernel, by decide +kernel, by decide +kernel, next_of (by decide +kernel),
    next_of (by decide +kernel), next_of (by decide +kernel)⟩

/-- `EncEmitEmitsThePendingSymbol`: EM1 and EM2, `DONE` 0 and 1. -/
theorem witness_encEmit :
    { encAt 3 3 [dat 0x73] with pendV := true, pend := 0x50 }.Pulled .enc ∧
    { encAt 0 0 [] with pendV := true, pend := 0x43, done := true }.Pulled .enc ∧
    ∃ t, exec .encEmit { encAt 0 0 [] with pendV := true, pend := 0x43, done := true } = .next t ∧
      (seen t == (0, 0, false, 0x43, [.data 0x43], false) && t.done) = true :=
  ⟨by decide +kernel, by decide +kernel, next_of (by decide +kernel)⟩

/-- `EncEndAnswersTheEndOfTheSequence`: EN1. -/
theorem witness_encEnd : { encAt 0 0 [dat 0x41] with done := true }.Pulled .enc := by decide +kernel

/-! ### Witnesses: the decoder's statements -/

/-- `DecSymSkipsAByteOutsideTheAlphabet`: DS1 and DS2. -/
theorem witness_decSym_skip :
    (decAt 5 5 [dat 0x20]).Takes .dec ⟨false, 0x20⟩ [] ∧ 0x20#8 ∉ decC.alphabet ∧
    (decFd 0 0 31 [dat 0x0A]).Takes .dec ⟨false, 0x0A⟩ [] ∧ 0x0A#8 ∉ decC.alphabet ∧
    ∃ t, exec (.decSym 0x0A) (decFd 0 0 31 [dat 0x0A]) = .next t ∧
      (t == { decFd 0 0 31 [dat 0x0A] with inq := [] }) = true :=
  ⟨by decide +kernel, by decide +kernel, by decide +kernel, by decide +kernel, next_of (by decide +kernel)⟩

/-- `DecSymHoldsAFirstDigit`: DS4 (digit 0) and digit 90. -/
theorem witness_decSym_first :
    (decAt 0 0 [dat 0x41]).Takes .dec ⟨false, 0x41⟩ [] ∧ decC.alphabet[0]? = some 0x41 ∧
    (decAt 0 0 [dat 0x22]).Takes .dec ⟨false, 0x22⟩ [] ∧ decC.alphabet[90]? = some 0x22 ∧
    ∃ t, exec (.decSym 0x22) (decAt 0 0 [dat 0x22]) = .next t ∧ (t.fdV && t.fd == 90 && t.outs == []) = true :=
  ⟨by decide +kernel, by decide +kernel, by decide +kernel, by decide +kernel, next_of (by decide +kernel)⟩

/-- `DecSymFormsAPairAndDrainsBytes`, one byte: DP3 (13 bits), DP4 (14 bits), and 15 bits, the most with one byte. -/
theorem witness_decSym_pair_one_byte :
    (decFd 0 0 89 [dat 0x41]).Takes .dec ⟨false, 0x41⟩ [] ∧ (decFd 0 0 88 [dat 0x41]).Takes .dec ⟨false, 0x41⟩ [] ∧
    (decFd 0 2 89 [dat 0x41]).Takes .dec ⟨false, 0x41⟩ [] ∧
    (∃ t, exec (.decSym 0x41) (decFd 0 0 89 [dat 0x41]) = .next t ∧
      (seen t == (0, 5, false, 0, [.data 0x59], false)) = true) ∧
    (∃ t, exec (.decSym 0x41) (decFd 0 0 88 [dat 0x41]) = .next t ∧
      (seen t == (0, 6, false, 0, [.data 0x58], false)) = true) ∧
    ∃ t, exec (.decSym 0x41) (decFd 0 2 89 [dat 0x41]) = .next t ∧ (t.nbits == 7 && !t.pendV) = true :=
  ⟨by decide +kernel, by decide +kernel, by decide +kernel, next_of (by decide +kernel), next_of (by decide +kernel),
    next_of (by decide +kernel)⟩
/-- The same, two bytes: DP6 and DP8 (16 bits, none left). -/
theorem witness_decSym_pair_two_bytes :
    (decFd 3 3 0 [dat 0x7A]).Takes .dec ⟨false, 0x7A⟩ [] ∧ (decFd 0 3 89 [dat 0x42]).Takes .dec ⟨false, 0x42⟩ [] ∧
    (∃ t, exec (.decSym 0x7A) (decFd 3 3 0 [dat 0x7A]) = .next t ∧
      (seen t == (0, 0, true, 0x91, [.data 0x0B], false)) = true) ∧
    ∃ t, exec (.decSym 0x42) (decFd 0 3 89 [dat 0x42]) = .next t ∧
      (seen t == (0, 0, true, 0x05, [.data 0xA0], false)) = true :=
  ⟨by decide +kernel, by decide +kernel, next_of (by decide +kernel), next_of (by decide +kernel)⟩

/-- `DecEosCompletesAHeldDigitOrDropsTheRest`: DE1 and DE4. -/
theorem witness_decEos :
    (decAt 5 5 [eos]).Takes .dec ⟨true, 0⟩ [] ∧ (decFd 0 0 65 [eos]).Takes .dec ⟨true, 0⟩ [] ∧
    (∃ t, exec .decEos (decAt 5 5 [eos]) = .next t ∧ (seen t == (0, 0, false, 0, [], true) && t.done) = true) ∧
    ∃ t, exec .decEos (decFd 0 0 65 [eos]) = .next t ∧ (seen t == (0, 0, false, 0, [.data 0x41], false)) = true :=
  ⟨by decide +kernel, by decide +kernel, next_of (by decide +kernel), next_of (by decide +kernel)⟩

/-- `DecEmitEmitsThePendingByte`: DM1. `DecEndAnswersTheEndOfTheSequence`: DN1. -/
theorem witness_decEmit_decEnd :
    { decAt 0 2 [dat 0x64] with pendV := true, pend := 0x73 }.Pulled .dec ∧
    { decAt 0 0 [] with done := true }.Pulled .dec := by decide +kernel

/-! ### Witnesses: reset and the invariants -/

/-- `ResetClearsEveryRegisterAndAbandonsTheNext` and `ResetGivesTheStateOfAFreshStream`: RS1, and RS3 in a decoder. -/
theorem witness_reset :
    { encAt 3 3 [] with pendV := true, pend := 0x50, rst := true }.Ok ∧
    { decAt 0 0 [] with done := true, rst := true }.Ok ∧
    ∃ t, exec .reset { decAt 0 0 [] with done := true, rst := true } = .next t ∧ (!t.done && !t.nextReq) = true :=
  ⟨by decide +kernel, by decide +kernel, next_of (by decide +kernel)⟩

/-- `ResetStateMeetsTheInvariant` and the statements on every legal configuration: a legal one that is not the default. -/
theorem witness_config : Config.wf { dir := .dec, alphabet := defaultAlphabet.reverse, accW := 21 } = true := by
  decide +kernel

/-- `EveryStepKeepsTheRegisterInvariant` and `NoStepChangesTheConfiguration`: a step that forms a group at the
largest count. -/
theorem witness_step_ok :
    (encAt 8191 13 [dat 0xFF]).Ok ∧
    ∃ t, step (encAt 8191 13 [dat 0xFF]) = .next t ∧ (seen t == (255, 8, true, 0x22, [.data 0x42], false)) = true :=
  ⟨by decide +kernel, next_of (by decide +kernel)⟩

/-- `OnlyProducersLeaveAPendingItem`: each of the three producers (EB2, EE4, DP2). -/
theorem witness_producers :
    (∃ t, exec (.encByte 0x65) (encAt 116 8 [dat 0x65]) = .next t ∧ t.pendV = true) ∧
    (∃ t, exec .encEos (encAt 91 7 [eos]) = .next t ∧ t.pendV = true) ∧
    ∃ t, exec (.decSym 0x4B) (decFd 5 5 13 [dat 0x4B]) = .next t ∧ t.pendV = true :=
  ⟨next_of (by decide +kernel), next_of (by decide +kernel), next_of (by decide +kernel)⟩

/-- `PendingRegistersAreExactlyThoseAProducerLeaves`, encoder: states that meet R31 with a pending symbol (EB5 with 8
bits, EB3 and EB8's symbols with none, EM2), and states no producer leaves, at the boundary of each condition. -/
theorem witness_pending_encoder :
    let s := fun (acc : Nat) (n : Count) (pend : Byte) => { encAt acc n [] with pendV := true, pend := pend }
    (s 255 8 0x22).Ok ∧ (s 0 0 0x41).Ok ∧ (s 0 0 0x22).Ok ∧ (s 0 1 0x42).Ok ∧ { s 0 0 0x43 with done := true }.Ok ∧
    (s 255 9 0x22).r31 = false ∧ (s 0 0 0x42).r31 = false ∧ (s 0 1 0x20).r31 = false ∧
    { s 0 0 0x20 with done := true }.r31 = false := by decide +kernel

/-- The same, decoder: DP5, DP2 and DP6's ends, and states no DEC_SYM leaves. With 4 bits left, the bits above the first
byte are 0 to 22 (a 14-bit pair) or at least 44 (a 13-bit pair). -/
theorem witness_pending_decoder :
    let s := fun (acc : Nat) (n : Count) (pend : Byte) => { decAt acc n [] with pendV := true, pend := pend }
    (s 16 5 0x2C).Ok ∧ (s 0 2 0x73).Ok ∧ (s 0 0 0x91).Ok ∧ (s 0 4 22).Ok ∧ (s 0 4 44).Ok ∧
    (s 16 5 0x2D).r31 = false ∧ (s 0 4 23).r31 = false ∧ (s 0 4 43).r31 = false ∧ (s 0 6 0).r31 = false ∧
    { s 0 0 0x91 with fdV := true }.r31 = false := by decide +kernel

/-- `NoAssertionOfResetIsLost`: the level raised and lowered by two actions at once (P5 after line 2), and a NEXT requested
while it is high. -/
theorem witness_reset_not_lost :
    let s := { encAt 3 3 [] with pendV := true, pend := 0x50, host := [.setRst true, .setRst false] }
    s.Ok ∧ s.rst = false ∧
    (∃ t, step s = .next t ∧ (t.rst && t.acc == 3 && t.host == [.setRst false]) = true) ∧
    (∃ u, step { s with rst := true, host := [.setRst false] } = .next u ∧
      (seen u == (0, 0, false, 0, [], false) && !u.rst && u.host == []) = true) ∧
    ∃ u, step { s with rst := true, host := [.request, .setRst false] } = .next u ∧
      (u.nextReq && u.rst && u.nbits == 0) = true :=
  ⟨by decide +kernel, rfl, next_of (by decide +kernel), next_of (by decide +kernel), next_of (by decide +kernel)⟩

/-- `NothingExceedsTwentyOneBitsInside`: the largest values in each direction, and the smallest pair. -/
theorem witness_bounds :
    ((encAt 8191 13 []).Ok ∧ 13 + 8 = 21 ∧ orAt 8191 0xFF 13 < 2 ^ 21) ∧
    (decFd 127 7 90 []).Ok ∧ 7 + groupWidth (pairValue 90 90) = 21 ∧ orAt 127 (pairValue 90 90) 7 < 2 ^ 21 ∧
    (decFd 0 0 89 []).Ok ∧ 0 + groupWidth (pairValue 89 0) = 13 := by decide +kernel

/-- `TheAccumulatorWidthIsNotObservable`: the smallest width on both sides, on the step that needs all 21 bits. -/
theorem witness_accW :
    let s := { encAt 8191 13 [dat 0xFF] with cfg := { encC with accW := 21 } }
    21 ≤ s.cfg.accW ∧
    ∃ t, exec (.encByte 0xFF) s = .next t ∧ (seen t == (255, 8, true, 0x22, [.data 0x42], false)) = true :=
  ⟨by decide +kernel, next_of (by decide +kernel)⟩

/-- `AnEncoderKeepsToItsAlphabet`: a state with a symbol emitted and a symbol pending (P1 after line 2). -/
theorem witness_symbols_only :
    let s := { encAt 3 3 [] with pendV := true, pend := 0x50, outs := [.data 0x66] }
    s.Ok ∧ s.cfg.dir = .enc ∧ s.SymbolsOnly ∧ ∃ t, step s = .next t ∧ (t.outs == [.data 0x66, .data 0x50]) = true := by
  refine ⟨by decide +kernel, rfl, ⟨?_, fun _ => ?_⟩, next_of (by decide +kernel)⟩
  · intro b hb
    have hb' : b = 0x66#8 := by simpa using hb
    subst hb'
    show 0x66#8 ∈ encC.alphabet
    decide +kernel
  · show 0x50#8 ∈ encC.alphabet
    decide +kernel

/-- `DoneIsStickyAndTakesNoInput`: P5 line 8. -/
theorem witness_done :
    let s := { encAt 0 0 [dat 0x41] with done := true }
    s.Ok ∧ s.rst = false ∧ s.done = true ∧ ∃ t, step s = .next t ∧ (t.done && t.inq == [dat 0x41]) = true :=
  ⟨by decide +kernel, by decide, by decide, next_of (by decide +kernel)⟩

/-! ### Witnesses: selection and the step -/

/-- `TheSelectionFollowsThePriorityOrder`: a state for each line, in the order of 30_encoding.md R63. -/
theorem witness_selection :
    { encAt 0 0 [] with rst := true, pendV := true }.fetch = .word 0b1001000000000#13 ∧
    (State.fresh encC).fetch = .idle ∧
    { encAt 0 0 [dat 0x74] with pendV := true, done := true }.fetch = .word 0b0011000000000#13 ∧
    { decAt 0 0 [dat 0x74] with done := true }.fetch = .word 0b0110000000000#13 ∧
    (encAt 0 0 []).fetch = .wait ∧
    (encAt 29 6 [eos]).fetch = .word 0b0000100000000#13 ∧
    (decAt 0 0 [dat 0x66]).fetch = .word 0b0100001100110#13 := by decide +kernel

/-- `AStepRunsTheDecodedMicroOperation`, with no host action coming and with a step granted. -/
theorem witness_step_runs :
    (encAt 0 0 [dat 0x74]).fetch = .word 0b0000001110100#13 ∧
    decodeSel 0b0000001110100#13 = .ok (.encByte 0x74) ∧ (encAt 0 0 [dat 0x74]).host = [] ∧
    { encAt 0 0 [dat 0x74] with host := [.micro, .request] }.fetch = .word 0b0000001110100#13 :=
  ⟨by decide +kernel, rfl, rfl, by decide +kernel⟩

/-- `RunsOutsideTheSpecAreRefused`: a state for each of its cases. -/
theorem witness_refused :
    { encC with accW := 20 }.wf = false ∧
    ((encAt 0 14 []).cfg.wf = true ∧ (encAt 0 14 []).r31 = false) ∧
    ((encAt 32 5 []).cfg.wf = true ∧ (encAt 32 5 []).r31 = false) ∧
    (decFd 0 0 91 []).r31 = false ∧
    { decAt 0 0 [] with done := true, pendV := true }.r31 = false ∧
    ({ encAt 0 0 [] with host := [.request] }.nextReq = true ∧ (encAt 0 0 []).rst = false) ∧
    { encAt 0 0 [] with rst := true, host := [.secondHost] }.r31 = true ∧
    { encAt 0 14 [] with rst := true, host := [.offer eos] }.r31 = false ∧
    { encC with dir := .dec } ≠ encC := by decide +kernel

/-- `TheBlockNeverFails`, `EveryStepKeepsTheRegisterInvariant` and `AnIdleBlockKeepsItsState`: an idle block. -/
theorem witness_idle :
    let s := { State.fresh decC with inq := [dat 0x41] }
    s.Ok ∧ s.host = [] ∧ s.rst = false ∧ s.nextReq = false := by decide +kernel

/-- `WaitingForInputChangesNothing`: a waiting block. -/
theorem witness_waiting :
    let s := encAt 116 8 []
    s.Ok ∧ s.host = [] ∧ s.nextReq = true ∧ s.fetch = .wait := by decide +kernel

/-- `AMicroOperationTakesAndEmitsAtMostOneItem`, `ThePortsShowWhatTheStepDoes`: one step of each kind (EB2 takes and
emits, EB1 takes, DM1 emits, waiting does neither), and one that a host action uses. -/
theorem witness_ports :
    ((encAt 116 8 [dat 0x65]).inReady = true ∧ (encAt 116 8 [dat 0x65]).outItem = some 0x066#9) ∧
    ((encAt 0 0 [dat 0x74]).inReady = true ∧ (encAt 0 0 [dat 0x74]).outValid = false) ∧
    (let s := { decAt 0 2 [dat 0x64] with pendV := true, pend := 0x73 }
     s.inReady = false ∧ s.outItem = some 0x073#9) ∧
    (encAt 0 0 []).inReady = false ∧ (encAt 0 0 []).outValid = false ∧
    (let s := { encAt 116 8 [dat 0x65] with host := [.setRst true] }
     s.inReady = false ∧ s.outValid = false) ∧
    { encAt 116 8 [dat 0x65] with host := [.micro] }.inReady = true ∧
    { encAt 0 0 [] with done := true }.outItem = some 0x100#9 := by decide +kernel

/-- `HostActionsTouchNoRegister`: each action that gives a next state. -/
theorem witness_host :
    (∃ t, step { encAt 3 3 [] with host := [.offer (dat 0x73)] } = .next t ∧ (t.inq == [dat 0x73]) = true) ∧
    (∃ t, step { State.fresh encC with host := [.request] } = .next t ∧ t.nextReq = true) ∧
    (∃ t, step { encAt 3 3 [] with host := [.setRst true, .micro] } = .next t ∧ (t.rst && t.host == [.micro]) = true) ∧
    ∃ t, step { encAt 3 3 [] with host := [.reconfigure encC] } = .next t ∧ (t.cfg == encC) = true :=
  ⟨next_of (by decide +kernel), next_of (by decide +kernel), next_of (by decide +kernel), next_of (by decide +kernel)⟩

/-- `InstancesShareNoState`: an encoder and a decoder side by side. -/
theorem witness_system :
    (systemStep 1 [encAt 116 8 [dat 0x65], decAt 0 0 [dat 0x66]]).map (fun l => l.map (fun u => (u.acc, u.fd, u.inq)))
      = some [(116, 0, [dat 0x65]), (0, 31, [])] := by decide +kernel

/-! ### Witnesses: tables, words and streams -/

/-- `TheInverseTableInvertsTheAlphabet`: the ends of the table and a byte outside it. -/
theorem witness_inverse :
    encC.wf = true ∧ encC.alphabet[0]? = some 0x41#8 ∧ encC.alphabet[90]? = some 0x22#8 ∧ 0x20#8 ∉ encC.alphabet := by
  decide +kernel

/-- `GroupValuesAndDigitPairsCorrespond`: the ends of each range. -/
theorem witness_groups :
    (is13 89 = true ∧ is13 8191 = true) ∧ (is13 88 = false ∧ is13 8192 = false ∧ is13 8280 = false) ∧
    is13 8281 = true ∧ (lowDigit 8280, highDigit 8280) = (90, 90) ∧ (lowDigit 8191, highDigit 8191) = (1, 90) := by
  decide +kernel

/-- `NewBitsGoAboveTheHeldBits`: the largest value of five held bits. -/
theorem witness_orAt : 31 < 2 ^ 5 ∧ orAt 31 0xFF 5 = 8191 := by decide +kernel

/-- `AnEncoderNextTakesAtMostTwoMicroOperations`: each alternative of its last premise. -/
theorem witness_encoder_next :
    ({ encAt 3 3 [] with pendV := true, pend := 0x50 }.Pulled .enc) ∧ ({ encAt 0 0 [] with done := true }.Pulled .enc) ∧
    (encAt 0 0 [dat 0x74, dat 0x65]).Pulled .enc ∧ (encAt 0 0 [eos]).Pulled .enc ∧
    ((encAt 63 6 [dat 0x01]).Pulled .enc ∧ (nextItem 1 (encAt 63 6 [dat 0x01])).map (fun p => p.1) = some (.data 0x6B)) ∧
    (nextItem 2 (encAt 0 0 [dat 0x74, dat 0x65])).map (fun p => p.1) = some (.data 0x66) ∧
    (nextItem 2 (encAt 0 0 [eos])).map (fun p => p.1) = some .endSeq := by decide +kernel

/-- `ADecoderNextEndsAtTheEosItemAtTheLatest`: bytes to skip before the EOS item. -/
theorem witness_decoder_next :
    let s := decAt 0 0 [dat 0x20, dat 0x0A, eos]
    s.Pulled .dec ∧ s.host = [] ∧ (∃ it ∈ s.inq, it.eos = true) ∧
    (nextItem 4 s).map (fun p => p.1) = some .endSeq :=
  ⟨by decide +kernel, rfl, ⟨eos, by decide +kernel, rfl⟩, by decide +kernel⟩

/-- `LaterItemsDoNotChangeASelectedMicroOperation`: EB2 with a later item. -/
theorem witness_later_items :
    ∃ t, exec (.encByte 0x65) { encAt 116 8 [dat 0x65] with inq := [dat 0x65] ++ [dat 0x73] } = .next t ∧
      (seen t == (3, 3, true, 0x50, [.data 0x66], false) && t.inq == [dat 0x73]) = true := next_of (by decide +kernel)

/-- `EveryEncoderStepFollowsTheSourceAlgorithm` and `EveryDecoderStepFollowsTheSourceAlgorithm`: EB2 and DP2, and what
each owes before and after. -/
theorem witness_owes :
    (encAt 116 8 [dat 0x65, eos]).Ok ∧ (encAt 116 8 [dat 0x65, eos]).encOwes = [0x66#8, 0x50#8, 0x44#8] ∧
    (decFd 5 5 13 [dat 0x4B, eos]).Ok ∧ (decFd 5 5 13 [dat 0x4B, eos]).decOwes = [0x65#8, 0x73#8] := by decide +kernel

/-- The stream statements, from the whole-buffer vectors. They are also the cases no bit, 8, 3 and 6 bits left of
`TheEncodedLengthFollowsTheGroupWidths`. -/
theorem witness_streams :
    encodeStream encC [] = some [] ∧ encodeStream encC [0xFF] = some [0x2F, 0x43] ∧
    encodeStream encC [0xFF, 0xFF] = some [0x42, 0x22, 0x48] ∧
    encodeStream encC [0x74, 0x65, 0x73, 0x74] = some [0x66, 0x50, 0x4E, 0x4B, 0x64] := by decide +kernel

/-- `TheEncodedLengthFollowsTheGroupWidths`, 7 bits left, with both outcomes: two groups of value 0 and one of value 89
(14, 14 and 13 bits), and then 90 or 91 in 7 bits (EE3, EE4). -/
theorem witness_seven_bits_left :
    groupWidthsRef 0 0 [0, 0, 0, 0x90, 0x05, 0xB4] = [14, 14, 13] ∧
    finalGroupRef 0 0 [0, 0, 0, 0x90, 0x05, 0xB4] = (90, 7) ∧
    (encodeStream encC [0, 0, 0, 0x90, 0x05, 0xB4]).map List.length = some 7 ∧
    finalGroupRef 0 0 [0, 0, 0, 0x90, 0x05, 0xB6] = (91, 7) ∧
    (encodeStream encC [0, 0, 0, 0x90, 0x05, 0xB6]).map List.length = some 8 := by decide +kernel

/-- The same, its last clause at both ends: 76 bytes of 0x00 and of 0xFF (30_encoding.md R72). -/
theorem witness_76_bytes :
    (encodeStream encC (List.replicate 76 0)).map List.length = some 87 ∧
    (encodeStream encC (List.replicate 76 0xFF)).map List.length = some 94 := by decide +kernel

/-- `InsertedNoiseDoesNotChangeDecode`: a space inside a stream (L1-7). -/
theorem witness_noise :
    0x20#8 ∉ encC.alphabet ∧ decodeStream encC ([0x2F] ++ 0x20 :: [0x43]) = some [0xFF] := by decide +kernel

end Sys2Proof.Tests
end

section
/-! SUPPORT. The two phases of every step: what the block does, and then what the host's action can touch. -/

namespace Sys2Proof.Machine

/-- All that an action of the host can change by itself: the reset level, the outstanding NEXT, and the items offered,
which only grow at the end. -/
theorem hostStep_frame {a : HostAct} {s t : State} (h : hostStep a s = .next t) :
    t = { s with inq := t.inq, nextReq := t.nextReq, rst := t.rst } ∧ s.inq <+: t.inq := by
  obtain ⟨it, -, rfl⟩ | ⟨-, -, rfl⟩ | ⟨l, -, rfl⟩ | ⟨-, rfl⟩ | ⟨-, rfl⟩ := hostStep_cases h
  · exact ⟨rfl, List.prefix_append _ _⟩
  all_goals exact ⟨rfl, List.prefix_rfl⟩

/-- Every step passes through a state `u` in which the block stood still or ran one micro-operation, and from which only
what a host action can touch has changed. -/
theorem step_phases {s t : State} (h : step s = .next t) :
    ∃ u, (u = { s with host := s.host.tail } ∨ ∃ i, exec i { s with host := s.host.tail } = .next u) ∧
      t = { u with inq := t.inq, nextReq := t.nextReq, rst := t.rst } ∧ u.inq <+: t.inq := by
  obtain ⟨-, ⟨hh, hb⟩ | ⟨a, rest, hh, ha⟩⟩ := step_cases h
  · have hs : { s with host := s.host.tail } = s := by rw [hh, List.tail_nil, ← hh]
    rw [hs]
    exact ⟨t, (blockStep_cases hb).imp_left And.left, rfl, List.prefix_rfl⟩
  · rw [hh, List.tail_cons]
    obtain ⟨-, hact⟩ | ⟨-, u, hb, hact⟩ := actionStep_cases ha
    · exact ⟨_, .inl rfl, hostStep_frame hact⟩
    · exact ⟨u, (blockStep_cases hb).imp_left And.left, hostStep_frame hact⟩

end Sys2Proof.Machine
end

section
/-! SUPPORT. The bits an operation holds, and the two branches of ENC_BYTE. -/

namespace Sys2Proof.Machine

/-- I-a and I-b of 10_state.md R31 for a count of at most `n`, over an accumulator of a legal width. Inside an operation
`n` is 21. -/
structure State.HoldsAtMost (s : State) (n : Nat) : Prop where
  width : 21 ≤ s.cfg.accW
  count : s.nbits.toNat ≤ n
  value : s.acc < 2 ^ s.nbits.toNat

theorem holdsAtMost_enc {s : State} (hs : s.Ok) (hd : s.cfg.dir = .enc) : s.HoldsAtMost 13 := by
  obtain ⟨hn, ha, -⟩ := (r31_enc hd).1 hs.2
  exact ⟨accW_ge hs, hn, ha⟩

theorem holdsAtMost_dec {s : State} (hs : s.Ok) (hd : s.cfg.dir = .dec) : s.HoldsAtMost 7 := by
  obtain ⟨hn, ha, -⟩ := (r31_dec hd).1 hs.2
  exact ⟨accW_ge hs, hn, ha⟩

theorem State.HoldsAtMost.acc_lt {s : State} (h : s.HoldsAtMost 21) : s.acc < 2 ^ 21 :=
  lt_pow_21 h.value h.count

/-- A held first digit is a digit (I-c of 10_state.md R31). -/
theorem fd_le {s : State} (hs : s.Ok) (hd : s.cfg.dir = .dec) (hf : s.fdV = true) : s.fd.toNat ≤ 90 := by
  obtain ⟨-, -, hfd, -⟩ := (r31_dec hd).1 hs.2
  exact hfd hf

variable {s : State} {b : Byte} {e : Digit}

theorem absorbByte_nbits_toNat (h : s.HoldsAtMost 13) : (absorbByte b s).nbits.toNat = s.nbits.toNat + 8 :=
  count_toNat (by have := h.count; omega)

theorem absorbByte_holdsAtMost (h : s.HoldsAtMost 13) : (absorbByte b s).HoldsAtMost 21 := by
  have hn := absorbByte_nbits_toNat (b := b) h
  refine ⟨h.width, by have := h.count; omega, ?_⟩
  rw [hn, absorbByte_eq b h.width h.count h.value]
  exact orAt_lt h.value b.isLt

/-- ENC_BYTE below 14 bits (40_encoder.md R100). -/
theorem encByteEffect_noGroup (h : s.HoldsAtMost 13) (hn : s.nbits.toNat ≤ 5) :
    encByteEffect b s = absorbByte b s := by
  have : ¬ 13 < s.nbits.toNat + 8 := by omega
  simp [encByteEffect, formsGroup, absorbByte_nbits_toNat h, this]

/-- ENC_BYTE from 14 bits on (40_encoder.md R100). -/
theorem encByteEffect_group (h : s.HoldsAtMost 13) (hn : 6 ≤ s.nbits.toNat) :
    encByteEffect b s = takeGroup (absorbByte b s) := by
  have : 13 < s.nbits.toNat + 8 := by omega
  simp [encByteEffect, formsGroup, absorbByte_nbits_toNat h, this]

theorem absorbPair_nbits_toNat (h : s.HoldsAtMost 7) :
    (absorbPair e s).nbits.toNat = s.nbits.toNat + groupWidth (pairValue s.fd.toNat e.toNat) := by
  have hg := groupWidth_cases (pairValue s.fd.toNat e.toNat)
  exact count_toNat (by have := h.count; omega)

theorem absorbPair_holdsAtMost (h : s.HoldsAtMost 7) (hd : s.fd.toNat ≤ 90) (he : e.toNat ≤ 90) :
    (absorbPair e s).HoldsAtMost 21 := by
  obtain ⟨-, hle, hlt⟩ := absorbPair_bounds h.count h.value hd he
  have hn := absorbPair_nbits_toNat (e := e) h
  refine ⟨h.width, by omega, ?_⟩
  rw [hn, absorbPair_eq h.width h.count h.value hd he]
  exact hlt

/-- Above the low byte of what a decoder holds after a pair stand the pair's own bits. -/
theorem absorbPair_acc_shiftRight_8 (h : s.HoldsAtMost 7) (hd : s.fd.toNat ≤ 90) (he : e.toNat ≤ 90) :
    (absorbPair e s).acc >>> 8 = pairValue s.fd.toNat e.toNat / 2 ^ (8 - s.nbits.toNat) := by
  have := h.count
  rw [absorbPair_eq h.width h.count h.value hd he]
  exact orAt_shiftRight_8 _ h.value (by omega)

theorem digit_le (h : isDigit e = true) : e.toNat ≤ 90 := by
  have := of_decide_eq_true h
  omega

/-- A byte and the bits above it make up the value again. -/
theorem lowByte_add_shiftRight (q : Nat) : (lowByte (q &&& 255)).toNat + (q >>> 8) * 256 = q := by
  rw [lowByte, and_255, BitVec.toNat_ofNat, Nat.shiftRight_eq_div_pow]
  omega

end Sys2Proof.Machine
end

section
/-! SUPPORT. Every micro-operation keeps the invariants of 10_state.md R31. -/

namespace Sys2Proof.Machine

variable {s : State}

/-- A flag that is 0 satisfies every condition on its being 1. -/
theorem imp_of_clear {flag : Bool} {p : Prop} (h : flag = false) : flag = true → p :=
  fun h1 => absurd (h.symm.trans h1) Bool.false_ne_true

theorem clearRegisters_r31 (s : State) : (clearRegisters s).r31 = true := by
  cases hd : s.cfg.dir
  case enc => exact (r31_enc (by exact hd)).2 (by simp)
  case dec => exact (r31_dec (by exact hd)).2 (by simp)

theorem clearPendV_r31 (h : s.r31 = true) : s.clearPendV.r31 = true := by
  cases hd : s.cfg.dir
  case enc =>
    obtain ⟨hn, ha, hdone, hfv, hfd, -⟩ := (r31_enc hd).1 h
    exact (r31_enc (by exact hd)).2 ⟨hn, ha, hdone, hfv, hfd, nofun⟩
  case dec =>
    obtain ⟨hn, ha, hfd, -, hdone, -⟩ := (r31_dec hd).1 h
    refine (r31_dec (by exact hd)).2 ⟨hn, ha, hfd, nofun, fun h => ?_, nofun⟩
    obtain ⟨hacc, hnb, hfv, -⟩ := hdone h
    exact ⟨hacc, hnb, hfv, rfl⟩

/-! ### The encoder -/

/-- Without a group ENC_BYTE holds at most 13 bits, with nothing pending. -/
theorem absorbByte_r31 (b : Byte) (hd : s.cfg.dir = .enc) (h : s.HoldsAtMost 13) (hn : s.nbits.toNat ≤ 5)
    (hp : s.pendV = false) (hdone : s.done = false) (hfv : s.fdV = false) (hfd : s.fd = 0) :
    (absorbByte b s).r31 = true := by
  have hcount := absorbByte_nbits_toNat (b := b) h
  exact (r31_enc (by exact hd)).2
    ⟨by omega, (absorbByte_holdsAtMost h).value, imp_of_clear hdone, hfv, hfd, imp_of_clear hp⟩

/-- A group leaves at most 8 bits and a pending symbol, of digit 0 or 90 where it leaves no bit:
only a 14-bit group can. -/
theorem takeGroup_r31 (hc : s.cfg.wf = true) (hd : s.cfg.dir = .enc) (h : s.HoldsAtMost 21) (hn : 14 ≤ s.nbits.toNat)
    (hdone : s.done = false) (hfv : s.fdV = false) (hfd : s.fd = 0) : (takeGroup s).r31 = true := by
  have hw := groupWidth_cases s.acc
  have hle := h.count
  have hcount : (takeGroup s).nbits.toNat = s.nbits.toNat - groupWidth s.acc := count_toNat (by omega)
  have hpend : (takeGroup s).pend = romAlpha s.cfg (highDigit (groupKey s.acc)) := rfl
  refine (r31_enc (by exact hd)).2 ⟨by omega, ?_, imp_of_clear hdone, hfv, hfd,
    fun _ => (encPendOk_iff _).2 ⟨romAlpha_mem hc (highDigit_lt (groupKey_le _)), .inr ⟨by omega, ?_⟩⟩⟩
  · rw [hcount, takeGroup_eq h.width h.count h.value]
    exact shiftRight_lt h.value (by omega)
  · by_cases h13 : 88 < s.acc % 8192
    · refine .inl fun h0 => ?_
      have : groupWidth s.acc = 13 := by rw [groupWidth_eq, if_pos h13]
      have : (takeGroup s).nbits.toNat = 0 := by rw [h0]; rfl
      omega
    · have hkey : groupKey s.acc = s.acc % 16384 := by rw [groupKey_eq, if_neg h13]
      rw [hpend, hkey]
      exact .inr ((highDigit_of_14 h13).imp (congrArg _) (congrArg _))

theorem encByteEffect_r31 (b : Byte) (hs : s.Ok) (hd : s.cfg.dir = .enc) (hp : s.pendV = false)
    (hdone : s.done = false) : (encByteEffect b s).r31 = true := by
  have hold := holdsAtMost_enc hs hd
  obtain ⟨-, -, -, hfv, hfd, -⟩ := (r31_enc hd).1 hs.2
  by_cases hn : s.nbits.toNat ≤ 5
  · rw [encByteEffect_noGroup hold hn]
    exact absorbByte_r31 b hd hold hn hp hdone hfv hfd
  · rw [encByteEffect_group hold (by omega)]
    have hcount := absorbByte_nbits_toNat (b := b) hold
    exact takeGroup_r31 hs.1 hd (absorbByte_holdsAtMost hold) (by omega) hdone hfv hfd

/-- The canonical done state of an encoder, with a symbol pending or nothing. -/
theorem encFinish_r31 (hd : s.cfg.dir = .enc) (hfv : s.fdV = false) (hfd : s.fd = 0)
    (hp : s.pendV = true → s.pend ∈ s.cfg.alphabet) : (encFinish s).r31 = true := by
  rw [encFinish_eq]
  refine (r31_enc (by exact hd)).2 ⟨by simp, by simp, fun _ => ⟨rfl, rfl⟩, hfv, hfd, fun h => ?_⟩
  exact (encPendOk_iff _).2 ⟨hp h, .inl rfl⟩

theorem encFinish_flushGroup_r31 (hs : s.Ok) (hd : s.cfg.dir = .enc) (hp : s.pendV = false) :
    (encFinish (flushGroup s)).r31 = true := by
  obtain ⟨hn, ha, -, hfv, hfd, -⟩ := (r31_enc hd).1 hs.2
  have hacc : s.acc ≤ 8280 := by
    have : s.acc < 2 ^ 13 := ha.trans_le (Nat.pow_le_pow_right (by decide) hn)
    omega
  obtain ⟨-, heq⟩ | ⟨-, -, -, heq⟩ | ⟨-, -, heq⟩ := flushGroup_cases s <;> rw [heq]
  · exact encFinish_r31 hd hfv hfd (imp_of_clear hp)
  · exact encFinish_r31 hd hfv hfd (imp_of_clear hp)
  · exact encFinish_r31 hd hfv hfd fun _ => romAlpha_mem hs.1 (highDigit_lt hacc)

/-! ### The decoder -/

/-- A first digit joins the bits held. -/
theorem setFd_r31 {e : Digit} (hs : s.Ok) (hd : s.cfg.dir = .dec) (hp : s.pendV = false) (hdone : s.done = false)
    (he : e.toNat ≤ 90) : (s.setFd e).r31 = true := by
  obtain ⟨hn, ha, -⟩ := (r31_dec hd).1 hs.2
  exact (r31_dec (by exact hd)).2 ⟨hn, ha, fun _ => he, fun _ => hdone, imp_of_clear hdone, imp_of_clear hp⟩

/-- After a pair a decoder holds at most 7 bits, or at most 5 with a byte pending that the pair's bits make up. -/
theorem drain_absorbPair_r31 {e : Digit} (hs : s.Ok) (hd : s.cfg.dir = .dec) (hp : s.pendV = false)
    (hdone : s.done = false) (hf : s.fdV = true) (he : e.toNat ≤ 90) : (drain (absorbPair e s)).r31 = true := by
  have hold := holdsAtMost_dec hs hd
  have hfd := fd_le hs hd hf
  have hmid := absorbPair_holdsAtMost hold hfd he
  have hcount := absorbPair_nbits_toNat (e := e) hold
  have hq := absorbPair_acc_shiftRight_8 hold hfd he
  have hle := hmid.count
  have hge := (absorbPair_bounds hold.count hold.value hfd he).1
  obtain ⟨hlt, heq⟩ | ⟨hge16, heq⟩ := drain_cases hmid.width hmid.count hmid.value <;> rw [heq]
  · have hc : (BitVec.ofNat 5 ((absorbPair e s).nbits.toNat - 8)).toNat = _ := count_toNat (by omega)
    refine (r31_dec (by exact hd)).2
      ⟨by dsimp only; omega, ?_, nofun, fun _ => hdone, imp_of_clear hdone, imp_of_clear hp⟩
    dsimp only
    rw [hc]
    exact shiftRight_lt hmid.value (by omega)
  · have hc : (BitVec.ofNat 5 ((absorbPair e s).nbits.toNat - 16)).toNat = _ := count_toNat (by omega)
    refine (r31_dec (by exact hd)).2
      ⟨by dsimp only; omega, ?_, nofun, fun _ => hdone, imp_of_clear hdone, fun _ => ?_⟩
    · dsimp only
      rw [hc, ← Nat.shiftRight_add]
      exact shiftRight_lt hmid.value hge16
    · refine (decPendOk_iff _).2 ⟨rfl, ?_⟩
      dsimp only
      rw [lowByte_add_shiftRight, hc, hq, hcount]
      exact abovePairByte_of_pair (pairValue_le hfd he) hold.count (by omega)

theorem decSymEffect_r31 (e : Digit) (hs : s.Ok) (hd : s.cfg.dir = .dec) (hp : s.pendV = false)
    (hdone : s.done = false) : (decSymEffect e s).r31 = true := by
  cases he : isDigit e
  · rw [decSymEffect_skip he]
    exact hs.2
  · cases hf : s.fdV
    · rw [decSymEffect_first he hf]
      exact setFd_r31 hs hd hp hdone (digit_le he)
    · rw [decSymEffect_pair he hf]
      exact drain_absorbPair_r31 hs hd hp hdone hf (digit_le he)

/-- The canonical done state of a decoder. -/
theorem decFinish_r31 (hd : s.cfg.dir = .dec) (hp : s.pendV = false) : (decFinish s).r31 = true := by
  rw [decFinish_eq]
  exact (r31_dec (by exact hd)).2
    ⟨by simp, by simp, nofun, imp_of_clear hp, fun _ => ⟨rfl, rfl, rfl, hp⟩,
      imp_of_clear hp⟩

@[simp] theorem flushDigit_pendV (s : State) : (flushDigit s).pendV = s.pendV := by
  unfold flushDigit
  split <;> rfl

@[simp] theorem flushDigit_cfg (s : State) : (flushDigit s).cfg = s.cfg := by
  unfold flushDigit
  split <;> rfl

/-! ### Every micro-operation, and every step -/

/-- A selected micro-operation keeps R31. -/
theorem effect_r31 {i : Instr} (hs : s.Ok) (hi : s.select = some i) : (effect i s).r31 = true := by
  have hf := select_facts hi
  cases i with
  | reset => exact clearRegisters_r31 s
  | encEmit | decEmit => exact clearPendV_r31 (s := s.emit _) hs.2
  | encEnd | decEnd => exact hs.2
  | encEos =>
    obtain ⟨-, -, hd, hp, -⟩ := hf
    exact encFinish_flushGroup_r31 (s := s.take) hs hd hp
  | encByte b =>
    obtain ⟨-, -, hd, hp, hdone, -⟩ := hf
    exact encByteEffect_r31 (s := s.take) b hs hd hp hdone
  | decEos =>
    obtain ⟨-, -, hd, hp, -⟩ := hf
    exact decFinish_r31 (by simpa using hd) (by simpa using hp)
  | decSym c =>
    obtain ⟨-, -, hd, hp, hdone, -⟩ := hf
    exact decSymEffect_r31 (s := s.take) _ hs hd hp hdone

theorem exec_ok_of_next {i : Instr} {s t : State} (h : exec i s = .next t) : t.Ok := by
  obtain ⟨hs, hi, rfl⟩ := (exec_eq_next_iff i s t).1 h
  exact ⟨by rw [effect_cfg]; exact hs.1, effect_r31 hs hi⟩

/-- Settles O15: the block keeps R31 by `exec_ok_of_next`, and R31 reads nothing that a host action can touch. -/
theorem everyStepKeepsTheRegisterInvariant : Obligations.EveryStepKeepsTheRegisterInvariant := by
  intro s t hs h
  obtain ⟨u, hu, ht, -⟩ := step_phases h
  have huOk : u.Ok := by
    obtain rfl | ⟨i, hi⟩ := hu
    · exact hs
    · exact exec_ok_of_next hi
  rw [ht]
  exact huOk

end Sys2Proof.Machine
end

section
/-! SUPPORT. The width of the accumulator is not observable (10_state.md R21). -/

namespace Sys2Proof.Machine

/-- The same block with an accumulator of `w` bits. -/
def State.withAccW (w : Nat) (s : State) : State :=
  { s with cfg := { s.cfg with accW := w } }

variable {s : State} {w : Nat}

/-- Legality asks of the width only that it is at least 21 (00_scope.md R8). -/
theorem wf_withAccW (hw : 21 ≤ w) (hs : 21 ≤ s.cfg.accW) : (s.withAccW w).cfg.wf = s.cfg.wf := by
  simp [State.withAccW, Config.wf, hw, hs]

/-- A value below 2^21 is written whole whatever the width. -/
theorem writeAcc_withAccW {v : Nat} (hw : 21 ≤ w) (hs : 21 ≤ s.cfg.accW) (hv : v < 2 ^ 21) :
    (s.withAccW w).writeAcc v = (s.writeAcc v).withAccW w := by
  rw [writeAcc_of_lt hw hv, writeAcc_of_lt hs hv]
  rfl

theorem State.HoldsAtMost.withAccW {n : Nat} (h : s.HoldsAtMost n) (hw : 21 ≤ w) : (s.withAccW w).HoldsAtMost n :=
  ⟨hw, h.count, h.value⟩

theorem absorbByte_withAccW (b : Byte) (hw : 21 ≤ w) (h : s.HoldsAtMost 13) :
    absorbByte b (s.withAccW w) = (absorbByte b s).withAccW w := by
  have hv : orAt s.acc b.toNat s.nbits.toNat < 2 ^ 21 :=
    lt_pow_21 (orAt_lt h.value b.isLt) (by have := h.count; omega)
  exact congrArg (State.writeNbits · (s.nbits.toNat + 8)) (writeAcc_withAccW hw h.width hv)

theorem takeGroup_withAccW (hw : 21 ≤ w) (h : s.HoldsAtMost 21) :
    takeGroup (s.withAccW w) = (takeGroup s).withAccW w := by
  have hold := h.withAccW hw
  rw [takeGroup_eq hold.width hold.count hold.value, takeGroup_eq h.width h.count h.value]
  rfl

theorem encByteEffect_withAccW (b : Byte) (hw : 21 ≤ w) (h : s.HoldsAtMost 13) :
    encByteEffect b (s.withAccW w) = (encByteEffect b s).withAccW w := by
  have hold := h.withAccW hw
  by_cases hn : s.nbits.toNat ≤ 5
  · rw [encByteEffect_noGroup h hn, encByteEffect_noGroup hold hn, absorbByte_withAccW b hw h]
  · have hn6 : 6 ≤ s.nbits.toNat := by omega
    rw [encByteEffect_group h hn6, encByteEffect_group hold hn6, absorbByte_withAccW b hw h,
      takeGroup_withAccW hw (absorbByte_holdsAtMost h)]

theorem flushGroup_withAccW (s : State) (w : Nat) : flushGroup (s.withAccW w) = (flushGroup s).withAccW w := by
  simp only [flushGroup, apply_ite (State.withAccW w)]
  rfl

theorem encFinish_withAccW (s : State) (w : Nat) : encFinish (s.withAccW w) = (encFinish s).withAccW w := by
  rw [encFinish_eq, encFinish_eq]
  rfl

theorem absorbPair_withAccW {e : Digit} (hw : 21 ≤ w) (h : s.HoldsAtMost 7) (hd : s.fd.toNat ≤ 90)
    (he : e.toNat ≤ 90) : absorbPair e (s.withAccW w) = (absorbPair e s).withAccW w := by
  have hold := h.withAccW hw
  rw [absorbPair_eq hold.width hold.count hold.value hd he, absorbPair_eq h.width h.count h.value hd he]
  rfl

theorem drain_withAccW (hw : 21 ≤ w) (h : s.HoldsAtMost 21) : drain (s.withAccW w) = (drain s).withAccW w := by
  have hold := h.withAccW hw
  obtain ⟨hn, heq⟩ | ⟨hn, heq⟩ := drain_cases h.width h.count h.value <;>
    obtain ⟨hn', heq'⟩ | ⟨hn', heq'⟩ := drain_cases hold.width hold.count hold.value
  · rw [heq, heq']; rfl
  · exact absurd (hn'.trans hn) (by decide)
  · exact absurd (hn.trans hn') (by decide)
  · rw [heq, heq']; rfl

theorem decSymEffect_withAccW {e : Digit} (hw : 21 ≤ w) (h : s.HoldsAtMost 7)
    (hfd : s.fdV = true → s.fd.toNat ≤ 90) :
    decSymEffect e (s.withAccW w) = (decSymEffect e s).withAccW w := by
  cases he : isDigit e
  · rw [decSymEffect_skip he, decSymEffect_skip he]
  · cases hf : s.fdV
    · rw [decSymEffect_first he hf, decSymEffect_first (s := s.withAccW w) he hf]
      rfl
    · have hle := digit_le he
      rw [decSymEffect_pair he hf, decSymEffect_pair (s := s.withAccW w) he hf,
        absorbPair_withAccW hw h (hfd hf) hle, drain_withAccW hw (absorbPair_holdsAtMost h (hfd hf) hle)]

theorem flushDigit_withAccW (s : State) (w : Nat) : flushDigit (s.withAccW w) = (flushDigit s).withAccW w := by
  simp only [flushDigit, apply_ite (State.withAccW w)]
  rfl

theorem decFinish_withAccW (s : State) (w : Nat) : decFinish (s.withAccW w) = (decFinish s).withAccW w := by
  rw [decFinish_eq, decFinish_eq]
  rfl

/-- A selected micro-operation does the same at every legal width. -/
theorem effect_withAccW {i : Instr} (hw : 21 ≤ w) (hs : s.Ok) (hi : s.select = some i) :
    effect i (s.withAccW w) = (effect i s).withAccW w := by
  have hf := select_facts hi
  cases i with
  | reset | encEmit | encEnd | decEmit | decEnd => rfl
  | encEos =>
    show encFinish (flushGroup (s.take.withAccW w)) = _
    rw [flushGroup_withAccW, encFinish_withAccW]
    rfl
  | encByte b =>
    obtain ⟨-, -, hd, -⟩ := hf
    exact encByteEffect_withAccW (s := s.take) b hw (holdsAtMost_enc (s := s.take) hs hd)
  | decEos =>
    show decFinish (flushDigit (s.take.withAccW w)) = _
    rw [flushDigit_withAccW, decFinish_withAccW]
    rfl
  | decSym c =>
    obtain ⟨-, -, hd, -⟩ := hf
    exact decSymEffect_withAccW (s := s.take) hw (holdsAtMost_dec (s := s.take) hs hd) (fd_le hs hd)

/-- What the guard refuses does not depend on a legal width: R31 and the selection do not read it. -/
theorem exec_refused_withAccW {i : Instr} {r : Refusal} (hw : 21 ≤ w) (hs : 21 ≤ s.cfg.accW)
    (h : exec i s = .refused r) : exec i (s.withAccW w) = .refused r := by
  have hr31 : (s.withAccW w).r31 = s.r31 := rfl
  have hsel : (s.withAccW w).select = s.select := rfl
  rw [exec_eq_guarded, guarded] at h ⊢
  rw [wf_withAccW hw hs, hr31, hsel]
  split_ifs at h ⊢
  all_goals exact h

/-- Settles O19, by `effect_withAccW` where the micro-operation runs and `exec_refused_withAccW` where it does not. -/
theorem theAccumulatorWidthIsNotObservable : Obligations.TheAccumulatorWidthIsNotObservable := by
  intro i s w hw hs
  show exec i (s.withAccW w) = _
  cases h : exec i s with
  | next t =>
    obtain ⟨hok, hi, rfl⟩ := (exec_eq_next_iff i s t).1 h
    have hok' : (s.withAccW w).Ok := ⟨(wf_withAccW hw hs).trans hok.1, hok.2⟩
    rw [exec_ok hok' hi, effect_withAccW hw hok hi]
    rfl
  | fault f => exact nomatch f
  | refused r => exact exec_refused_withAccW hw hs h

end Sys2Proof.Machine
end

section
/-! SUPPORT. What is pending, what is done, and what the host can touch: the other statements on every step. -/

namespace Sys2Proof.Machine

/-- A micro-operation other than ENC_BYTE, ENC_EOS and DEC_SYM leaves nothing pending: it clears `PEND_V`, or it is
selected only while `PEND_V` is 0 and leaves it. -/
theorem producer_of_pendV {i : Instr} {s : State} (hi : s.select = some i) (hp : (effect i s).pendV = true) :
    (∃ b, i = .encByte b) ∨ i = .encEos ∨ ∃ c, i = .decSym c := by
  have hf := select_facts hi
  cases i with
  | encByte b => exact .inl ⟨b, rfl⟩
  | encEos => exact .inr (.inl rfl)
  | decSym c => exact .inr (.inr ⟨c, rfl⟩)
  | reset | encEmit | decEmit => exact absurd hp Bool.false_ne_true
  | encEnd | decEnd =>
    obtain ⟨-, -, -, hclear, -⟩ := hf
    exact imp_of_clear hclear hp
  | decEos =>
    obtain ⟨-, -, -, hclear, -⟩ := hf
    exact imp_of_clear hclear ((flushDigit_pendV s.take).symm.trans hp)

/-- Settles O16, by the selection: see `producer_of_pendV`. -/
theorem onlyProducersLeaveAPendingItem : Obligations.OnlyProducersLeaveAPendingItem := by
  intro i s t h hp
  obtain ⟨-, hi, rfl⟩ := (exec_eq_next_iff i s t).1 h
  exact producer_of_pendV hi hp

/-- Settles O17, by `orAt_lt`: an encoder adds 8 bits to at most 13, a decoder 13 or 14 to at most 7. -/
theorem nothingExceedsTwentyOneBitsInside : Obligations.NothingExceedsTwentyOneBitsInside := by
  refine fun s hs => ⟨fun hd b => ?_, fun hd hf e he => ?_⟩
  · have hold := holdsAtMost_enc hs hd
    have hlt := orAt_lt hold.value b.isLt
    have hle : s.nbits.toNat + 8 ≤ 21 := by have := hold.count; omega
    exact ⟨hle, hlt, lt_pow_21 hlt hle⟩
  · intro pv
    have hold := holdsAtMost_dec hs hd
    have hlt := orAt_lt hold.value (lt_groupWidth (pairValue_le (fd_le hs hd hf) he))
    have hw := groupWidth_cases pv
    have hle : s.nbits.toNat + groupWidth pv ≤ 21 := by have := hold.count; omega
    exact ⟨by omega, hle, hlt, lt_pow_21 hlt hle⟩

/-- With `DONE` set and reset low only EMIT and END run: they keep `DONE` and take nothing. -/
theorem exec_of_done {i : Instr} {s t : State} (hr : s.rst = false) (hdone : s.done = true) (h : exec i s = .next t) :
    t.done = true ∧ t.inq = s.inq := by
  obtain ⟨-, hi, rfl⟩ := (exec_eq_next_iff i s t).1 h
  have hf := select_facts hi
  cases i with
  | reset => exact imp_of_clear hr hf
  | encEmit | encEnd | decEmit | decEnd => exact ⟨hdone, rfl⟩
  | encEos | encByte b | decEos | decSym c =>
    obtain ⟨-, -, -, -, hclear, -⟩ := hf
    exact imp_of_clear hclear hdone

/-- Settles O21: the block by `exec_of_done`, and the host only adds to the items offered. -/
theorem doneIsStickyAndTakesNoInput : Obligations.DoneIsStickyAndTakesNoInput := by
  intro s t _ hr hdone h
  obtain ⟨u, hu, ht, hq⟩ := step_phases h
  have hblock : u.done = true ∧ u.inq = s.inq := by
    obtain rfl | ⟨i, hi⟩ := hu
    · exact ⟨hdone, rfl⟩
    · exact exec_of_done (s := { s with host := s.host.tail }) hr hdone hi
  obtain ⟨hud, huq⟩ := hblock
  exact ⟨by rw [ht]; exact hud, huq ▸ hq⟩

/-- Settles O18: the block by `effect_cfg`, and no host action can touch the parameters. -/
theorem noStepChangesTheConfiguration : Obligations.NoStepChangesTheConfiguration := by
  intro s t h
  obtain ⟨u, hu, ht, -⟩ := step_phases h
  have hblock : u.cfg = s.cfg := by
    obtain rfl | ⟨i, hi⟩ := hu
    · rfl
    · obtain ⟨-, -, rfl⟩ := (exec_eq_next_iff i _ u).1 hi
      exact effect_cfg i _
  rw [ht]
  exact hblock

theorem leavesStep_of_ne_micro {a : HostAct} (h : a ≠ .micro) : a.leavesStep = false := by
  cases a with
  | micro => exact absurd rfl h
  | _ => rfl

/-- Settles O35: without reset the action has the step for itself, and `hostStep_frame` says what it can touch. -/
theorem hostActionsTouchNoRegister : Obligations.HostActionsTouchNoRegister := by
  intro s t a rest hr hh ha h
  obtain ⟨hwf, -⟩ := step_cases h
  rw [step_of_host hwf hh, actionStep_alone (by exact hr) (leavesStep_of_ne_micro ha)] at h
  obtain ⟨ht, hq⟩ := hostStep_frame h
  rw [ht]
  exact ⟨rfl, rfl, rfl, rfl, rfl, rfl, rfl, rfl, rfl, hq, rfl⟩

/-- The inversion lemma of a step of a system: entry `k` is there, and it alone is replaced. -/
theorem systemStep_cases {k : Nat} {sys sys' : List State} (h : systemStep k sys = some sys') :
    ∃ s t, sys[k]? = some s ∧ step s = .next t ∧ sys' = sys.set k t := by
  unfold systemStep at h
  split at h
  next s hs =>
    split at h
    next t ht => exact ⟨s, t, hs, ht, (Option.some.inj h).symm⟩
    all_goals cases h
  next => cases h

/-- Settles O36: replacing one entry of the list leaves the others. -/
theorem instancesShareNoState : Obligations.InstancesShareNoState := by
  intro k sys sys' h
  obtain ⟨s, t, hs, ht, rfl⟩ := systemStep_cases h
  have hk : k < sys.length := (List.getElem?_eq_some_iff.1 hs).1
  exact ⟨fun j hj => List.getElem?_set_ne hj.symm, s, t, hs, ht, List.getElem?_set_self hk⟩

/-- Settles O12: both are the reset values as they are written down. -/
theorem everyRegisterHasItsResetValue : Obligations.EveryRegisterHasItsResetValue := by
  refine ⟨fun c => ⟨rfl, rfl, rfl, rfl, rfl, rfl, rfl⟩, fun s t h => ?_⟩
  obtain ⟨-, -, rfl⟩ := (exec_eq_next_iff .reset s t).1 h
  exact ⟨rfl, rfl, rfl, rfl, rfl, rfl, rfl⟩

/-- A new block has the registers that RESET leaves. -/
theorem fresh_ok {c : Config} (hc : c.wf = true) : (State.fresh c).Ok :=
  ⟨hc, clearRegisters_r31 (State.fresh c)⟩

theorem default_wf : Config.default.wf = true := by
  decide +kernel

/-- Settles O14: a new block has cleared registers and has emitted nothing. -/
theorem resetStateMeetsTheInvariant : Obligations.ResetStateMeetsTheInvariant :=
  ⟨fun _ hc => ⟨fresh_ok hc, nofun, nofun⟩, fresh_ok default_wf⟩

end Sys2Proof.Machine
end

section
/-! SUPPORT. A producer for every pending state of R31: the states before the ENC_BYTE, ENC_EOS or DEC_SYM that leaves
it (I-d of 10_state.md R31, log entry 9). -/

namespace Sys2Proof.Machine

/-- The registers of `s` are those that an ENC_BYTE, an ENC_EOS or a DEC_SYM leaves, with `PEND_V` set. A decoder's `FD`
is not compared (93_implementation_defined.md I5). -/
def State.LeftByAProducer (s : State) : Prop :=
  ∃ (i : Instr) (u t : State), ((∃ b, i = .encByte b) ∨ i = .encEos ∨ ∃ c, i = .decSym c) ∧ exec i u = .next t ∧
    t.cfg = s.cfg ∧ t.acc = s.acc ∧ t.nbits = s.nbits ∧ t.pendV = true ∧ t.pend = s.pend ∧ t.fdV = s.fdV ∧
    t.done = s.done ∧ (s.cfg.dir = .enc → t.fd = s.fd)

/-- The block pulled and out of reset, with `n` bits `acc` held, nothing pending, and `it` offered. -/
def State.rewound (s : State) (acc n : Nat) (it : InItem) : State :=
  { s with
    acc := acc, nbits := BitVec.ofNat 5 n, pendV := false, done := false
    rst := false, nextReq := true, inq := [it] }

/-- The same with the first digit `d` held. -/
def State.rewoundWithDigit (s : State) (acc n d : Nat) (it : InItem) : State :=
  (s.rewound acc n it).setFd (BitVec.ofNat 7 d)

variable {s : State} {acc n : Nat} {it : InItem}

theorem State.HoldsAtMost.take (h : s.HoldsAtMost n) : s.take.HoldsAtMost n :=
  ⟨h.width, h.count, h.value⟩

theorem rewound_nbits_toNat (hn : n ≤ 21) : (s.rewound acc n it).nbits.toNat = n :=
  count_toNat hn

theorem rewound_holdsAtMost {k : Nat} (hw : 21 ≤ s.cfg.accW) (hn : n ≤ k) (hk : k ≤ 21) (ha : acc < 2 ^ n) :
    (s.rewound acc n it).HoldsAtMost k := by
  have hcount := rewound_nbits_toNat (s := s) (acc := acc) (it := it) (hn.trans hk)
  exact ⟨hw, hcount.trans_le hn, by rw [hcount]; exact ha⟩

theorem ofNat_count {k : Nat} {c : Count} (h : k = c.toNat) : BitVec.ofNat 5 k = c := by
  rw [h, BitVec.ofNat_toNat, BitVec.setWidth_eq]

/-! ### The encoder -/

theorem rewound_ok_enc (hc : s.cfg.wf = true) (hd : s.cfg.dir = .enc) (hfv : s.fdV = false) (hfd : s.fd = 0)
    (hn : n ≤ 13) (ha : acc < 2 ^ n) : (s.rewound acc n it).Ok := by
  have hcount := rewound_nbits_toNat (s := s) (acc := acc) (it := it) (by omega : n ≤ 21)
  exact ⟨hc, (r31_enc (by exact hd)).2 ⟨by omega, by rw [hcount]; exact ha, nofun, hfv, hfd, nofun⟩⟩

/-- Every symbol is the alphabet's entry at a digit. -/
theorem exists_digit_of_mem {c : Config} (hc : c.wf = true) {b : Byte} (hb : b ∈ c.alphabet) :
    ∃ k < 91, romAlpha c k = b := by
  obtain ⟨k, hk⟩ := List.mem_iff_getElem?.1 hb
  exact ⟨k, index_lt hc hk, romAlpha_eq hk⟩

/-- Any symbol is left by an ENC_EOS: from 13 bits that hold its digit as the high one. -/
theorem leftByAProducer_of_done (hc : s.cfg.wf = true) (hd : s.cfg.dir = .enc) (hfv : s.fdV = false)
    (hfd : s.fd = 0) (hdone : s.done = true) (hacc : s.acc = 0) (hnb : s.nbits = 0) (hp : s.pend ∈ s.cfg.alphabet) :
    s.LeftByAProducer := by
  obtain ⟨k, hk, hpend⟩ := exists_digit_of_mem hc hp
  have hok := rewound_ok_enc (acc := 91 * k) (n := 13) (it := ⟨true, 0⟩) hc hd hfv hfd le_rfl (by omega)
  have hsel : (s.rewound (91 * k) 13 ⟨true, 0⟩).select = some .encEos :=
    select_of_facts ⟨rfl, rfl, hd, rfl, rfl, 0, [], rfl⟩
  have hcount : (s.rewound (91 * k) 13 ⟨true, 0⟩).take.nbits.toNat = 13 := rfl
  have hhigh : highDigit (91 * k) = k := Nat.mul_div_cancel_left k (by decide)
  obtain ⟨h0, -⟩ | ⟨-, h7, -⟩ | ⟨-, -, hflush⟩ := flushGroup_cases (s.rewound (91 * k) 13 ⟨true, 0⟩).take
  · omega
  · omega
  · refine ⟨.encEos, _, _, .inr (.inl rfl), exec_ok hok hsel, ?_⟩
    rw [effect, hflush, encFinish_eq]
    exact ⟨rfl, hacc.symm, hnb.symm, rfl, (congrArg (romAlpha s.cfg) hhigh).trans hpend, rfl, hdone.symm,
      fun _ => rfl⟩

/-- Absorbing the top byte of a value above the bits below it gives the value. -/
theorem absorbByte_rewound {a m : Nat} {b : Byte} (hw : 21 ≤ s.cfg.accW) (hm : 8 ≤ m) (hm' : m ≤ 21)
    (hb : b.toNat = a / 2 ^ (m - 8)) :
    absorbByte b (s.rewound (a % 2 ^ (m - 8)) (m - 8) it).take = (s.rewound a m it).take := by
  have hlow : a % 2 ^ (m - 8) < 2 ^ (m - 8) := Nat.mod_lt _ (Nat.two_pow_pos _)
  have hold := (rewound_holdsAtMost (it := it) hw (by omega : m - 8 ≤ 13) (by decide) hlow).take
  have hcount : (s.rewound (a % 2 ^ (m - 8)) (m - 8) it).take.nbits.toNat = m - 8 := count_toNat (by omega)
  have hjoin : orAt (a % 2 ^ (m - 8)) (a / 2 ^ (m - 8)) (m - 8) = a := by
    rw [orAt_eq_add _ hlow, Nat.mod_add_div']
  rw [absorbByte_eq b hold.width hold.count hold.value, hcount, hb, Nat.sub_add_cancel hm]
  exact congrArg (fun v => { (s.rewound a m it).take with acc := v }) hjoin

/-- Any 14 to 21 bits `a` are those an ENC_BYTE takes its group from, and it leaves the bits above the group. -/
theorem leftByAProducer_of_group {a m : Nat} (hc : s.cfg.wf = true) (hd : s.cfg.dir = .enc) (hfv : s.fdV = false)
    (hfd : s.fd = 0) (hdone : s.done = false) (hm : 14 ≤ m) (hm' : m ≤ 21) (ha : a < 2 ^ m)
    (hacc : a >>> groupWidth a = s.acc) (hnb : m - groupWidth a = s.nbits.toNat)
    (hpend : romAlpha s.cfg (highDigit (groupKey a)) = s.pend) : s.LeftByAProducer := by
  have hbyte : a / 2 ^ (m - 8) < 2 ^ 8 :=
    Nat.div_lt_of_lt_mul (by rw [← Nat.pow_add, Nat.sub_add_cancel (by omega)]; exact ha)
  obtain ⟨b, hb⟩ : ∃ b : Byte, b.toNat = a / 2 ^ (m - 8) := ⟨BitVec.ofNatLT _ hbyte, BitVec.toNat_ofNatLT _ _⟩
  have hlow : a % 2 ^ (m - 8) < 2 ^ (m - 8) := Nat.mod_lt _ (Nat.two_pow_pos _)
  have hn : m - 8 ≤ 13 := by omega
  have hok := rewound_ok_enc (it := ⟨false, b⟩) hc hd hfv hfd hn hlow
  have hsel : (s.rewound (a % 2 ^ (m - 8)) (m - 8) ⟨false, b⟩).select = some (.encByte b) :=
    select_of_facts ⟨rfl, rfl, hd, rfl, rfl, [], rfl⟩
  have hw := ((Config.wf_iff s.cfg).1 hc).2.2
  have hold := (holdsAtMost_enc hok hd).take
  have hcount : (s.rewound (a % 2 ^ (m - 8)) (m - 8) ⟨false, b⟩).take.nbits.toNat = m - 8 := count_toNat (by omega)
  have hmid := (rewound_holdsAtMost (it := ⟨false, b⟩) hw hm' le_rfl ha).take
  have hmidCount : (s.rewound a m ⟨false, b⟩).take.nbits.toNat = m := count_toNat hm'
  refine ⟨.encByte b, _, _, .inl ⟨b, rfl⟩, exec_ok hok hsel, ?_⟩
  rw [effect, encByteEffect_group hold (by omega), absorbByte_rewound hw (by omega) hm' hb,
    takeGroup_eq hmid.width hmid.count hmid.value, hmidCount]
  exact ⟨rfl, hacc, ofNat_count hnb, rfl, hpend, rfl, hdone.symm, fun _ => rfl⟩

/-- 1 to 8 bits below a pending symbol are left above a 13-bit group with that high digit. -/
theorem leftByAProducer_of_bitsLeft (hc : s.cfg.wf = true) (hd : s.cfg.dir = .enc) (hfv : s.fdV = false)
    (hfd : s.fd = 0) (hdone : s.done = false) (hpos : 0 < s.nbits.toNat) (hn : s.nbits.toNat ≤ 8)
    (ha : s.acc < 2 ^ s.nbits.toNat) (hp : s.pend ∈ s.cfg.alphabet) : s.LeftByAProducer := by
  obtain ⟨k, hk, hpend⟩ := exists_digit_of_mem hc hp
  obtain ⟨key, hge, hlt, hhigh⟩ : ∃ key, 88 < key ∧ key < 8192 ∧ key / 91 = k := by
    obtain rfl | hk0 := Nat.eq_zero_or_pos k
    · exact ⟨89, by decide⟩
    · exact ⟨91 * k, by omega, by omega, by omega⟩
  have hmod : (key + s.acc * 8192) % 8192 = key := by omega
  have hwidth : groupWidth (key + s.acc * 8192) = 13 := by rw [groupWidth_eq, hmod, if_pos hge]
  have hkey : groupKey (key + s.acc * 8192) = key := by rw [groupKey_eq, hmod, if_pos hge]
  refine leftByAProducer_of_group (a := key + s.acc * 8192) (m := s.nbits.toNat + 13) hc hd hfv hfd hdone
    (by omega) (by omega) ?_ ?_ (by omega) ?_
  · rw [Nat.pow_add]; omega
  · rw [hwidth, Nat.shiftRight_eq_div_pow]; omega
  · rw [hkey, highDigit, hhigh, hpend]

/-- The high digit's symbol of a 14-bit group is left with no bit. -/
theorem leftByAProducer_of_group14 {key : Nat} (hc : s.cfg.wf = true) (hd : s.cfg.dir = .enc) (hfv : s.fdV = false)
    (hfd : s.fd = 0) (hdone : s.done = false) (hacc : s.acc = 0) (hnb : s.nbits = 0) (hlt : key < 16384)
    (hle : key % 8192 ≤ 88) (hpend : s.pend = romAlpha s.cfg (highDigit key)) : s.LeftByAProducer := by
  have hwidth : groupWidth key = 14 := by rw [groupWidth_eq, if_neg (by omega)]
  have hkey : groupKey key = key := by rw [groupKey_eq, if_neg (by omega), Nat.mod_eq_of_lt hlt]
  refine leftByAProducer_of_group (a := key) (m := 14) hc hd hfv hfd hdone le_rfl (by decide) hlt ?_ ?_ ?_
  · rw [hwidth, hacc, Nat.shiftRight_eq_div_pow]; omega
  · rw [hwidth, hnb]; rfl
  · rw [hkey, hpend]

theorem leftByAProducer_of_r31_enc (hs : s.Ok) (hd : s.cfg.dir = .enc) (hp : s.pendV = true) : s.LeftByAProducer := by
  obtain ⟨-, ha, hdone, hfv, hfd, hpend⟩ := (r31_enc hd).1 hs.2
  obtain ⟨hmem, hcase⟩ := (encPendOk_iff s).1 (hpend hp)
  cases hdn : s.done with
  | true =>
    obtain ⟨hacc, hnb⟩ := hdone hdn
    exact leftByAProducer_of_done hs.1 hd hfv hfd hdn hacc hnb hmem
  | false =>
    obtain ⟨hle, hrest⟩ := hcase.resolve_left (imp_of_clear hdn)
    by_cases hnb : s.nbits = 0
    · have hacc : s.acc = 0 := by simpa [hnb] using ha
      obtain h0 | h90 := hrest.resolve_left (absurd hnb)
      · exact leftByAProducer_of_group14 (key := 0) hs.1 hd hfv hfd hdn hacc hnb (by decide) (by decide) h0
      · exact leftByAProducer_of_group14 (key := 8192) hs.1 hd hfv hfd hdn hacc hnb (by decide) (by decide) h90
    · have hpos : 0 < s.nbits.toNat := Nat.pos_of_ne_zero fun h0 => hnb (BitVec.eq_of_toNat_eq h0)
      exact leftByAProducer_of_bitsLeft hs.1 hd hfv hfd hdn hpos hle ha hmem

/-! ### The decoder -/

theorem digit_toNat {d : Nat} (h : d ≤ 90) : (BitVec.ofNat 7 d).toNat = d := by
  rw [BitVec.toNat_ofNat]
  exact Nat.mod_eq_of_lt (by omega)


theorem byte_and_rest {q a : Nat} {p : Byte} (h : q = p.toNat + a * 256) :
    lowByte (q &&& 255) = p ∧ q >>> 8 = a := by
  have hp := p.isLt
  refine ⟨BitVec.eq_of_toNat_eq ?_, ?_⟩
  · rw [lowByte, and_255, BitVec.toNat_ofNat]
    omega
  · rw [Nat.shiftRight_eq_div_pow]
    omega

theorem rewoundWithDigit_ok {d : Nat} (hc : s.cfg.wf = true) (hd : s.cfg.dir = .dec) (hn : n ≤ 7)
    (ha : acc < 2 ^ n) (hle : d ≤ 90) : (s.rewoundWithDigit acc n d it).Ok := by
  have hcount : (s.rewoundWithDigit acc n d it).nbits.toNat = n := count_toNat (by omega)
  have hdigit : (s.rewoundWithDigit acc n d it).fd.toNat = d := digit_toNat hle
  exact ⟨hc, (r31_dec (by exact hd)).2
    ⟨by omega, by rw [hcount]; exact ha, fun _ => by omega, nofun, nofun, nofun⟩⟩

/-- The bits above the first byte of a pair, as a byte and the bits left above it, are left by the DEC_SYM that takes
the pair's second digit. -/
theorem leftByAProducer_of_pair {pv : Nat} (hc : s.cfg.wf = true) (hd : s.cfg.dir = .dec) (hfv : s.fdV = false)
    (hdone : s.done = false) (hpv : pv ≤ 8280) (hn : n ≤ 7) (hnb : n + groupWidth pv = s.nbits.toNat + 16)
    (hq : pv / 2 ^ (8 - n) = s.pend.toNat + s.acc * 256) : s.LeftByAProducer := by
  have hhigh : highDigit pv < 91 := highDigit_lt hpv
  have hlow : lowDigit pv ≤ 90 := Nat.le_of_lt_succ (lowDigit_lt pv)
  generalize hb : romAlpha s.cfg (highDigit pv) = b
  have he : (romInv s.cfg b).toNat = highDigit pv := hb ▸ romInv_toNat hc (romAlpha_getElem? hc hhigh)
  have hdigit : isDigit (romInv s.cfg b) = true := (isDigit_romInv hc b).2 (hb ▸ romAlpha_mem hc hhigh)
  have hok := rewoundWithDigit_ok (acc := 0) (it := ⟨false, b⟩) hc hd hn (Nat.two_pow_pos n) hlow
  generalize hu : s.rewoundWithDigit 0 n (lowDigit pv) ⟨false, b⟩ = u at hok
  have hsel : u.select = some (.decSym b) := hu ▸ select_of_facts ⟨rfl, rfl, hd, rfl, rfl, [], rfl⟩
  have hcount : u.take.nbits.toNat = n := hu ▸ count_toNat (by omega)
  have hfd : u.take.fd.toNat = lowDigit pv := hu ▸ digit_toNat hlow
  have hpair : pairValue u.take.fd.toNat (romInv s.cfg b).toNat = pv := by
    rw [hfd, he]
    exact Nat.mod_add_div' pv 91
  have hold := (holdsAtMost_dec hok (hu ▸ hd)).take
  have hmid := absorbPair_holdsAtMost (e := romInv s.cfg b) hold (by omega) (by omega)
  have hmidCount := absorbPair_nbits_toNat (e := romInv s.cfg b) hold
  have hmidAcc := absorbPair_acc_shiftRight_8 (e := romInv s.cfg b) hold (by omega) (by omega)
  rw [hpair, hcount] at hmidCount hmidAcc
  obtain ⟨hpend, hacc⟩ := byte_and_rest (hmidAcc.trans hq)
  have heffect : effect (.decSym b) u = drain (absorbPair (romInv s.cfg b) u.take) := by
    subst hu
    exact decSymEffect_pair hdigit rfl
  obtain ⟨hle15, -⟩ | ⟨-, hdrain⟩ := drain_cases hmid.width hmid.count hmid.value
  · omega
  · refine ⟨.decSym b, u, _, .inr (.inr ⟨b, rfl⟩), exec_ok hok hsel, ?_⟩
    rw [heffect, hdrain]
    exact ⟨hu ▸ rfl, hacc, ofNat_count (by omega), rfl, hpend, hfv.symm, hu ▸ hdone.symm,
      fun h => absurd (hd.symm.trans h) nofun⟩

theorem leftByAProducer_of_r31_dec (hs : s.Ok) (hd : s.cfg.dir = .dec) (hp : s.pendV = true) : s.LeftByAProducer := by
  obtain ⟨-, ha, -, hdone, -, hpend⟩ := (r31_dec hd).1 hs.2
  obtain ⟨hfv, habove⟩ := (decPendOk_iff s).1 (hpend hp)
  have hq : s.pend.toNat + s.acc * 256 < 2 ^ (8 + s.nbits.toNat) := by
    have := s.pend.isLt
    rw [Nat.pow_add]
    omega
  obtain ⟨pv, n, hpv, hn, hnb, hpq⟩ := exists_pair_of_abovePairByte hq habove
  exact leftByAProducer_of_pair hs.1 hd hfv (hdone hp) hpv hn hnb hpq

/-! ### Both directions -/

/-- What a micro-operation leaves meets R31, and R31 compares nothing that `LeftByAProducer` does not. -/
theorem r31_of_leftByAProducer (hp : s.pendV = true) (h : s.LeftByAProducer) : s.r31 = true := by
  obtain ⟨i, u, t, -, hexec, hcfg, hacc, hnb, hpv, hpend, hfv, hdone, hfd⟩ := h
  have ht := (exec_ok_of_next hexec).2
  refine Eq.trans ?_ ht
  cases hd : s.cfg.dir with
  | enc => simp [State.r31, State.encPendOk, hcfg, hd, hacc, hnb, hpv, hp, hpend, hfv, hdone, hfd hd]
  | dec =>
    obtain ⟨-, -, -, -, -, hpendOk⟩ := (r31_dec (hcfg ▸ hd)).1 ht
    obtain ⟨htfv, -⟩ := (decPendOk_iff t).1 (hpendOk hpv)
    simp [State.r31, State.decPendOk, hcfg, hd, hacc, hnb, hpv, hp, hpend, ← hfv, htfv, hdone]

theorem leftByAProducer_of_r31 (hs : s.Ok) (hp : s.pendV = true) : s.LeftByAProducer := by
  cases hd : s.cfg.dir with
  | enc => exact leftByAProducer_of_r31_enc hs hd hp
  | dec => exact leftByAProducer_of_r31_dec hs hd hp

/-- Settles O55: `exec_ok_of_next` one way, and the other way a producer for each case of the check. -/
theorem pendingRegistersAreExactlyThoseAProducerLeaves :
    Obligations.PendingRegistersAreExactlyThoseAProducerLeaves :=
  fun _ hc hp => ⟨fun h => leftByAProducer_of_r31 ⟨hc, h⟩ hp, r31_of_leftByAProducer hp⟩

end Sys2Proof.Machine
end

section
/-! SUPPORT. The inverse table as a whole, and the bits of the shared OR (20_memory.md R42, R46). -/

namespace Sys2Proof.Machine

/-- Settles O40: below `n` the shifted bits are 0, and from `n` on the held ones are. -/
theorem newBitsGoAboveTheHeldBits : Obligations.NewBitsGoAboveTheHeldBits := by
  intro v x n k hv
  rw [orAt, Nat.testBit_or, Nat.testBit_shiftLeft]
  split
  next hk => simp [Nat.not_le.2 hk]
  next hk =>
    have hv0 : v.testBit k = false :=
      Nat.testBit_lt_two_pow (hv.trans_le (Nat.pow_le_pow_right (by decide) (Nat.not_lt.1 hk)))
    simp [hv0, Nat.not_lt.1 hk]

/-- The byte values that map to a digit are the alphabet's entries, in another order. -/
theorem digitBytes_perm_alphabet {c : Config} (hc : c.wf = true) :
    ((List.range 256).filter (fun k => isDigit (romInv c (BitVec.ofNat 8 k)))).Perm
      (c.alphabet.map BitVec.toNat) := by
  obtain ⟨-, hnodup, -⟩ := (Config.wf_iff c).1 hc
  refine (List.perm_ext_iff_of_nodup (List.nodup_range.filter _)
    (hnodup.map fun _ _ => BitVec.eq_of_toNat_eq)).2 fun k => ?_
  rw [List.mem_filter, List.mem_range, isDigit_romInv hc, List.mem_map]
  constructor
  · rintro ⟨hk, hmem⟩
    exact ⟨_, hmem, Nat.mod_eq_of_lt hk⟩
  · rintro ⟨b, hb, rfl⟩
    rw [BitVec.ofNat_toNat, BitVec.setWidth_eq]
    exact ⟨b.isLt, hb⟩

/-- Settles O37, by the laws of `romInv`; the count by `digitBytes_perm_alphabet`. -/
theorem theInverseTableInvertsTheAlphabet : Obligations.TheInverseTableInvertsTheAlphabet := by
  refine fun c hc => ⟨fun _ _ => romInv_toNat hc, fun _ => romInv_of_not_mem, fun i hi => ?_, ?_⟩
  · exact romInv_toNat hc (romAlpha_getElem? hc (by omega))
  · obtain ⟨hlen, -⟩ := (Config.wf_iff c).1 hc
    rw [(digitBytes_perm_alphabet hc).length_eq, List.length_map, hlen]

end Sys2Proof.Machine
end

section
/-! SUPPORT. What a micro-operation does to the two streams: at most one item in and one out (20_memory.md R50). -/

namespace Sys2Proof.Machine

/-- From `s` to `t` the items offered, the reset input and the host's coming actions stay, and a NEXT is answered
with one item, or left as it is with none. -/
structure State.AnswersAtMostOnce (s t : State) : Prop where
  inq : t.inq = s.inq
  rst : t.rst = s.rst
  host : t.host = s.host
  answer : (t.outs = s.outs ∧ t.nextReq = s.nextReq) ∨ ∃ o, t.outs = s.outs ++ [o] ∧ t.nextReq = false

variable {s : State}

/-- Without an item a NEXT stays as it is. -/
theorem State.AnswersAtMostOnce.nextReq_of_outs {t : State} (h : s.AnswersAtMostOnce t) (ho : t.outs = s.outs) :
    t.nextReq = s.nextReq := by
  obtain ⟨-, hn⟩ | ⟨o, hone, -⟩ := h.answer
  · exact hn
  · simp [ho] at hone

theorem encByteEffect_answers (b : Byte) (s : State) : s.AnswersAtMostOnce (encByteEffect b s) := by
  unfold encByteEffect
  split
  · exact ⟨rfl, rfl, rfl, .inr ⟨_, rfl, rfl⟩⟩
  · exact ⟨rfl, rfl, rfl, .inl ⟨rfl, rfl⟩⟩

theorem encFinish_flushGroup_answers (s : State) : s.AnswersAtMostOnce (encFinish (flushGroup s)) := by
  obtain ⟨-, heq⟩ | ⟨-, -, -, heq⟩ | ⟨-, -, heq⟩ := flushGroup_cases s <;> rw [heq]
  · exact ⟨rfl, rfl, rfl, .inl ⟨rfl, rfl⟩⟩
  · exact ⟨rfl, rfl, rfl, .inr ⟨_, rfl, rfl⟩⟩
  · exact ⟨rfl, rfl, rfl, .inr ⟨_, rfl, rfl⟩⟩

theorem drain_answers (s : State) : s.AnswersAtMostOnce (drain s) := by
  simp only [drain]
  split <;> exact ⟨rfl, rfl, rfl, .inr ⟨_, rfl, rfl⟩⟩

theorem decSymEffect_answers (e : Digit) (s : State) : s.AnswersAtMostOnce (decSymEffect e s) := by
  cases he : isDigit e
  · rw [decSymEffect_skip he]
    exact ⟨rfl, rfl, rfl, .inl ⟨rfl, rfl⟩⟩
  · cases hf : s.fdV
    · rw [decSymEffect_first he hf]
      exact ⟨rfl, rfl, rfl, .inl ⟨rfl, rfl⟩⟩
    · rw [decSymEffect_pair he hf]
      obtain ⟨hq, hr, hh, ha⟩ := drain_answers (absorbPair e s)
      exact ⟨hq, hr, hh, ha⟩

theorem decFinish_flushDigit_answers (s : State) : s.AnswersAtMostOnce (decFinish (flushDigit s)) := by
  unfold flushDigit
  split
  · exact ⟨rfl, rfl, rfl, .inr ⟨_, rfl, rfl⟩⟩
  · exact ⟨rfl, rfl, rfl, .inl ⟨rfl, rfl⟩⟩

/-- The state after the item of the micro-operation's row is taken, if the row takes one (30_encoding.md R64). -/
def State.takeFor (s : State) (i : Instr) : State :=
  { s with inq := if takesInput i then s.inq.tail else s.inq }

/-- Every micro-operation but RESET takes what its row says, and then answers at most once. -/
theorem effect_answers {i : Instr} (hi : i ≠ .reset) (s : State) : (s.takeFor i).AnswersAtMostOnce (effect i s) := by
  cases i with
  | reset => exact absurd rfl hi
  | encEmit | encEnd | decEmit | decEnd => exact ⟨rfl, rfl, rfl, .inr ⟨_, rfl, rfl⟩⟩
  | encEos => exact encFinish_flushGroup_answers s.take
  | encByte b => exact encByteEffect_answers b s.take
  | decEos => exact decFinish_flushDigit_answers s.take
  | decSym c => exact decSymEffect_answers _ s.take

/-- What a row takes is the head item, which the selection has seen. -/
theorem exists_head_of_takesInput {i : Instr} (hi : s.select = some i) (ht : takesInput i = true) :
    ∃ it, s.inq = it :: s.inq.tail := by
  have hf := select_facts hi
  cases i with
  | reset | encEmit | encEnd | decEmit | decEnd => exact absurd ht Bool.false_ne_true
  | encEos | decEos =>
    obtain ⟨-, -, -, -, -, d, rest, hq⟩ := hf
    exact ⟨_, by rw [hq]; rfl⟩
  | encByte b | decSym b =>
    obtain ⟨-, -, -, -, -, rest, hq⟩ := hf
    exact ⟨_, by rw [hq]; rfl⟩

/-- Outside RESET the block runs only while a NEXT is outstanding (42_interface_control.md R161). -/
theorem nextReq_of_select {i : Instr} (hi : s.select = some i) (hne : i ≠ .reset) : s.nextReq = true := by
  have hf := select_facts hi
  cases i with
  | reset => exact absurd rfl hne
  | _ =>
    obtain ⟨-, hn, -⟩ := hf
    exact hn

/-- Settles O33: RESET by its effect, every other micro-operation by `effect_answers`. -/
theorem aMicroOperationTakesAndEmitsAtMostOneItem : Obligations.AMicroOperationTakesAndEmitsAtMostOneItem := by
  intro i s t h
  obtain ⟨-, hi, rfl⟩ := (exec_eq_next_iff i s t).1 h
  by_cases hne : i = .reset
  · subst hne
    exact ⟨nofun, fun _ => rfl, .inl rfl, fun _ _ => rfl, rfl, rfl, rfl⟩
  · have hnext := nextReq_of_select hi hne
    have hans := effect_answers hne s
    refine ⟨fun ht => ?_, fun ht => ?_, hans.answer.imp_left And.left, fun hn ho => ?_, hans.rst, hans.host,
      effect_cfg i s⟩
    · rw [hans.inq, State.takeFor, if_pos ht]
      exact exists_head_of_takesInput hi ht
    · rw [hans.inq, State.takeFor, if_neg (Bool.eq_false_iff.1 ht)]
    · rw [hans.nextReq_of_outs ho] at hn
      exact imp_of_clear hn hnext

end Sys2Proof.Machine
end

section
/-! SUPPORT. The operation map read by its rows: exactly one row matches a selector word, and decoding is that row's
micro-operation (30_encoding.md R64, R65). -/

namespace Sys2Proof

/-! ### A selector word is its five flags above its data byte -/

/-- `SEL[12:8]`: the flags of a selector word (30_encoding.md R62). -/
def selFlags (w : Sel) : BitVec 5 :=
  w.extractLsb' 8 5

theorem selFlags_append_selData (w : Sel) : selFlags w ++ selData w = w :=
  BitVec.extractLsb'_append_extractLsb'

theorem selFlags_append (h : BitVec 5) (d : Byte) : selFlags (h ++ d) = h :=
  BitVec.extractLsb'_append_eq_left

theorem selData_append (h : BitVec 5) (d : Byte) : selData (h ++ d) = d :=
  BitVec.extractLsb'_append_eq_right

theorem flags_append_data_inj (g h : BitVec 5) (c d : Byte) : g ++ c = h ++ d ↔ g = h ∧ c = d := by
  refine ⟨fun e => ⟨?_, ?_⟩, fun ⟨hg, hc⟩ => by rw [hg, hc]⟩
  · rw [← selFlags_append g c, e, selFlags_append]
  · rw [← selData_append g c, e, selData_append]

/-- The mask of all flags keeps them and clears the data byte. -/
theorem and_flagMask (w : Sel) : w &&& 0x1F00#13 = selFlags w ++ 0#8 := by
  have hmask : 0x1F00#13 = BitVec.allOnes 5 ++ 0#8 := rfl
  conv_lhs => rw [← selFlags_append_selData w, hmask, BitVec.and_append, BitVec.and_allOnes, BitVec.and_zero]

/-! ### The rows -/

/-- The row of the operation map a micro-operation has (30_encoding.md R64). -/
def rowOf : Instr → OpRow
  | .reset     => opTable[0]
  | .encEmit   => opTable[1]
  | .encEnd    => opTable[2]
  | .encEos    => opTable[3]
  | .encByte _ => opTable[4]
  | .decEmit   => opTable[5]
  | .decEnd    => opTable[6]
  | .decEos    => opTable[7]
  | .decSym _  => opTable[8]

theorem rowOf_mem (i : Instr) : rowOf i ∈ opTable := by
  cases i <;> exact List.getElem_mem _

theorem rowOf_mnemonic (i : Instr) : (rowOf i).mnemonic = i.mnemonic := by
  cases i <;> rfl

theorem rowOf_mask (i : Instr) : (rowOf i).mask = sampledMask i := by
  cases i <;> rfl

/-- Every row of the operation map is the row of whatever it builds. -/
theorem rowOf_build {r : OpRow} (hr : r ∈ opTable) (d : Byte) : rowOf (r.build d) = r := by
  simp only [opTable, List.cons_append, List.nil_append, List.mem_cons, List.not_mem_nil, or_false] at hr
  obtain rfl | rfl | rfl | rfl | rfl | rfl | rfl | rfl | rfl := hr <;> rfl

/-- No row samples the data byte. -/
theorem mask_and_flagMask {r : OpRow} (hr : r ∈ opTable) : 0x1F00#13 &&& r.mask = r.mask := by
  revert r
  decide

/-- Whether a row matches is decided by the flags alone. -/
theorem matchesWord_eq_flags {r : OpRow} (hr : r ∈ opTable) (w : Sel) :
    r.matchesWord w = r.matchesWord (selFlags w ++ 0#8) := by
  rw [OpRow.matchesWord, OpRow.matchesWord, ← and_flagMask, BitVec.and_assoc, mask_and_flagMask hr]

/-- Of the 32 values of the flags each matches one row. -/
theorem one_row_matches_flags (h : BitVec 5) : (opTable.filter (fun r => r.matchesWord (h ++ 0#8))).length = 1 := by
  revert h
  decide

/-- The one row that matches a word, and what the word decodes to by it. -/
theorem exists_matching_row (w : Sel) :
    ∃ r ∈ opTable, opTable.filter (fun r => r.matchesWord w) = [r] ∧ decodeSel w = .ok (r.build (selData w)) := by
  have hone : (opTable.filter (fun r => r.matchesWord w)).length = 1 := by
    rw [List.filter_congr fun r hr => matchesWord_eq_flags hr w]
    exact one_row_matches_flags (selFlags w)
  obtain ⟨r, hr⟩ := List.length_eq_one_iff.1 hone
  have hmem : r ∈ opTable := List.mem_of_mem_filter (hr ▸ List.mem_singleton_self r)
  refine ⟨r, hmem, hr, ?_⟩
  rw [decodeSel, ← List.head?_filter, hr]
  rfl

/-- Settles O23: one row matches by `exists_matching_row`, and it is the row of what it builds. -/
theorem everyWordMatchesExactlyOneRow : Obligations.EveryWordMatchesExactlyOneRow := by
  intro w
  obtain ⟨r, hmem, hr, hdec⟩ := exists_matching_row w
  refine ⟨_, hdec, ?_⟩
  rw [hr, ← rowOf_mnemonic, rowOf_build hmem]
  rfl

/-- A word decodes to a micro-operation exactly when it matches the micro-operation's row, since no other row then does,
and the row makes the micro-operation from the word's data byte. -/
theorem decodeSel_eq_ok_iff (w : Sel) (i : Instr) :
    decodeSel w = .ok i ↔ (rowOf i).matchesWord w = true ∧ (rowOf i).build (selData w) = i := by
  obtain ⟨r, hmem, hr, hdec⟩ := exists_matching_row w
  have hrow (k : OpRow) : k ∈ opTable ∧ k.matchesWord w = true ↔ k = r := by
    rw [← List.mem_singleton (b := r), ← hr, List.mem_filter]
  rw [hdec]
  constructor
  · intro h
    rw [← Except.ok.inj h, rowOf_build hmem]
    exact ⟨((hrow r).2 rfl).2, rfl⟩
  · rintro ⟨hmatch, hbuild⟩
    rw [← (hrow _).1 ⟨rowOf_mem i, hmatch⟩, hbuild]

/-! ### The encoding in the same terms -/

/-- The bits of a word that a micro-operation reads: with an operand all of them, else those its row samples. -/
theorem sampledMask_or_operand (i : Instr) :
    sampledMask i ||| (if i.operand?.isSome then 0xFF#13 else 0#13) =
      if i.operand?.isSome then BitVec.allOnes 13 else sampledMask i := by
  cases i with
  | encByte b | decSym c => simp [Instr.operand?, sampledMask]
  | _ => rfl

/-- The data byte written into a selector word leaves the flags 0. -/
theorem zeroExtend_eq_append (d : Byte) : d.zeroExtend 13 = 0#5 ++ d :=
  BitVec.setWidth_eq_append (by decide)

theorem encode_encByte (b : Byte) : encode (.encByte b) = 0#5 ++ b :=
  zeroExtend_eq_append b

theorem encode_decSym (c : Byte) : encode (.decSym c) = 0b01000#5 ++ c := by
  have hflags : 0x0800#13 = 0b01000#5 ++ 0#8 := rfl
  rw [encode, zeroExtend_eq_append, hflags, BitVec.or_append, BitVec.or_zero, BitVec.zero_or]

/-- The flags `p` of a row and the operand `d` in the data byte are all bits of a word. -/
theorem flags_and_operand_iff (w : Sel) (p : BitVec 5) (d : Byte) :
    w &&& 0x1F00#13 = p ++ 0#8 ∧ selData w = d ↔ w &&& BitVec.allOnes 13 = p ++ d := by
  rw [and_flagMask, flags_append_data_inj, BitVec.and_allOnes]
  constructor
  · rintro ⟨⟨hp, -⟩, hd⟩
    rw [← selFlags_append_selData w, hp, hd]
  · rintro rfl
    exact ⟨⟨selFlags_append p d, rfl⟩, selData_append p d⟩

/-- Settles O25, by `decodeSel_eq_ok_iff`: without an operand the row is all that is asked, and with one every bit is. -/
theorem decodingReadsExactlyTheSampledBits : Obligations.DecodingReadsExactlyTheSampledBits := by
  intro i w
  rw [decodeSel_eq_ok_iff, OpRow.matchesWord, beq_iff_eq, rowOf_mask, sampledMask_or_operand]
  cases i with
  | encByte b =>
    rw [encode_encByte]
    exact (and_congr_right' (iff_of_eq (Instr.encByte.injEq _ b))).trans (flags_and_operand_iff w 0#5 b)
  | decSym c =>
    rw [encode_decSym]
    exact (and_congr_right' (iff_of_eq (Instr.decSym.injEq _ c))).trans (flags_and_operand_iff w 0b01000#5 c)
  | _ => exact and_iff_left rfl

/-- An encoding has no bit set that its row and its operand do not sample. -/
theorem encode_and_sampled (i : Instr) :
    encode i &&& (sampledMask i ||| (if i.operand?.isSome then 0xFF#13 else 0#13)) = encode i := by
  rw [sampledMask_or_operand]
  cases i with
  | encByte b | decSym c => exact BitVec.and_allOnes
  | _ => rfl

/-- A word decodes the same when it is given as a number. -/
theorem decodeTableWord_toNat (n : Nat) (w : Sel) : decodeTableWord n w.toNat = (decodeSel w).toOption := by
  rw [decodeTableWord, decodeWord, if_pos w.isLt, BitVec.ofNat_toNat, BitVec.setWidth_eq]

/-- Settles O24: an encoding is its own sampled bits, so O25 gives the micro-operation back. -/
theorem decodeOfEncodeIsTheMicroOperation : Obligations.DecodeOfEncodeIsTheMicroOperation := by
  intro i
  have h : decodeSel (encode i) = .ok i := (decodingReadsExactlyTheSampledBits i (encode i)).2 (encode_and_sampled i)
  refine ⟨h, ?_⟩
  rw [decodeTableWord_toNat, h]
  rfl

end Sys2Proof
end


section
/-! SUPPORT. The selection and the step through the selector word: the block forms a word for a micro-operation exactly
when the selection procedure picks it (30_encoding.md R62, R63). -/

namespace Sys2Proof.Machine

/-- The two forms of the selection are one. -/
theorem fetches_iff_select (s : State) (i : Instr) :
    (∃ w, s.fetch = .word w ∧ decodeSel w = .ok i) ↔ s.select = some i := by
  obtain ⟨j, w, hj, hw, hdec⟩ | ⟨hnone, hno⟩ := fetch_agrees_select s
  · rw [hj, Option.some.injEq]
    constructor
    · rintro ⟨v, hv, hi⟩
      rw [← Fetch.word.inj (hw.symm.trans hv), hdec] at hi
      exact Except.ok.inj hi
    · rintro rfl
      exact ⟨w, hw, hdec⟩
  · have hword (w : Sel) : s.fetch ≠ .word w := by
      obtain h | h := hno <;> rw [h] <;> exact nofun
    exact iff_of_false (fun ⟨w, hw, _⟩ => hword w hw) (hnone ▸ nofun)

/-- Settles O22: what runs is what the selection picks, by `fetches_iff_select`, and its facts are the lines of R63. -/
theorem theSelectionFollowsThePriorityOrder : Obligations.TheSelectionFollowsThePriorityOrder := by
  intro s runs
  have hruns {i : Instr} (h : selectFacts s i) : runs i := (fetches_iff_select s i).2 (select_of_facts h)
  refine ⟨fun hr => hruns (i := .reset) hr, fun hr hn => by simp [State.fetch, hr, hn], fun hr hn => ?_⟩
  have hwait (hp : s.pendV = false) (hd : s.done = false) (hq : s.inq = []) : s.fetch = .wait := by
    simp [State.fetch, hr, hn, hp, hd, hq]
  cases hdir : s.cfg.dir with
  | enc =>
    exact ⟨fun hp => hruns (i := .encEmit) ⟨hr, hn, hdir, hp⟩,
      fun hp hd => hruns (i := .encEnd) ⟨hr, hn, hdir, hp, hd⟩,
      fun hp hd => ⟨hwait hp hd, fun d rest hq => hruns (i := .encEos) ⟨hr, hn, hdir, hp, hd, d, rest, hq⟩,
        fun d rest hq => hruns (i := .encByte d) ⟨hr, hn, hdir, hp, hd, rest, hq⟩⟩⟩
  | dec =>
    exact ⟨fun hp => hruns (i := .decEmit) ⟨hr, hn, hdir, hp⟩,
      fun hp hd => hruns (i := .decEnd) ⟨hr, hn, hdir, hp, hd⟩,
      fun hp hd => ⟨hwait hp hd, fun d rest hq => hruns (i := .decEos) ⟨hr, hn, hdir, hp, hd, d, rest, hq⟩,
        fun d rest hq => hruns (i := .decSym d) ⟨hr, hn, hdir, hp, hd, rest, hq⟩⟩⟩

/-- Settles O28: the guard asks for the state and the selection, and the selection is the word formed. -/
theorem aMicroOperationRunsExactlyWhenSelected : Obligations.AMicroOperationRunsExactlyWhenSelected := by
  intro i s
  simp only [exec_eq_next_iff, fetches_iff_select, exists_and_left, exists_eq, and_true]

/-- The block runs the micro-operation of the word it forms. -/
theorem blockStep_of_fetch {s : State} {w : Sel} {i : Instr} (hw : s.fetch = .word w) (hi : decodeSel w = .ok i) :
    blockStep s = exec i s := by
  simp only [blockStep, hw, hi]

theorem step_illFormed {s : State} (h : s.cfg.wf = false) : step s = .refused .illFormedConfig := by
  rw [step, stepOnce, if_pos h]

/-- Settles O27: a legal step is the block's, and an ill-formed configuration is refused by the step and by the meaning. -/
theorem aStepRunsTheDecodedMicroOperation : Obligations.AStepRunsTheDecodedMicroOperation := by
  intro s w i hw hi
  cases hwf : s.cfg.wf with
  | false =>
    have hstep := step_illFormed hwf
    exact ⟨fun _ => hstep.trans (exec_illFormed i hwf).symm,
      fun rest _ => hstep.trans (exec_illFormed i (s := { s with host := rest }) hwf).symm⟩
  | true =>
    refine ⟨fun hh => ?_, fun rest hh => ?_⟩
    · rw [step_of_noHost hwf hh, blockStep_of_fetch hw hi]
    · have hw' : State.fetch { s with host := rest } = .word w := hw
      rw [step_of_host hwf hh, actionStep_micro, blockStep_of_fetch hw' hi]

end Sys2Proof.Machine
end

section
/-! SUPPORT. Group values, digit pairs and the shared width (30_encoding.md R67 to R69). -/

namespace Sys2Proof.Machine

theorem groupKey_of_13 {v : Nat} (h : is13 v = true) : groupKey v = v % 8192 := by
  rw [is13_eq, decide_eq_true_iff] at h
  rw [groupKey_eq, if_pos h]

theorem groupKey_of_14 {v : Nat} (h : is13 v = false) : groupKey v = v % 16384 := by
  rw [is13_eq, decide_eq_false_iff_not] at h
  rw [groupKey_eq, if_neg h]

/-- The bits the width predicate looks at are in the group. -/
theorem groupKey_mod_8192 (v : Nat) : groupKey v % 8192 = v % 8192 := by
  cases h : is13 v
  · rw [groupKey_of_14 h, Nat.mod_mod_of_dvd v (by decide)]
  · rw [groupKey_of_13 h, Nat.mod_mod]

theorem pairValue_digits (k : Nat) : pairValue (lowDigit k) (highDigit k) = k :=
  Nat.mod_add_div' k 91

theorem lowDigit_pairValue {d0 : Nat} (d1 : Nat) (h : d0 ≤ 90) : lowDigit (pairValue d0 d1) = d0 := by
  rw [lowDigit, pairValue, Nat.add_mul_mod_self_right, Nat.mod_eq_of_lt (by omega)]

theorem highDigit_pairValue {d0 : Nat} (d1 : Nat) (h : d0 ≤ 90) : highDigit (pairValue d0 d1) = d1 := by
  rw [highDigit, pairValue, Nat.add_mul_div_right _ _ (by decide), Nat.div_eq_of_lt (by omega), Nat.zero_add]

/-- Settles O38: the ranges by the width predicate, and the digits by division with remainder. -/
theorem groupValuesAndDigitPairsCorrespond : Obligations.GroupValuesAndDigitPairsCorrespond := by
  refine ⟨fun v => ⟨fun h => ?_, fun h => ?_⟩, fun k hk => ?_, fun d0 d1 h0 h1 => ?_⟩
  · rw [groupKey_of_13 h]
    rw [is13_eq, decide_eq_true_iff] at h
    omega
  · rw [groupKey_of_14 h]
    rw [is13_eq, decide_eq_false_iff_not] at h
    omega
  · exact ⟨Nat.le_of_lt_succ (lowDigit_lt k), Nat.le_of_lt_succ (highDigit_lt hk), pairValue_digits k⟩
  · exact ⟨pairValue_le h0 h1, lowDigit_pairValue d1 h0, highDigit_pairValue d1 h0⟩

/-- Settles O39, by `groupKey_mod_8192`: predicate and width look at the low 13 bits only. -/
theorem theDecoderRecoversTheGroupWidth : Obligations.TheDecoderRecoversTheGroupWidth := by
  intro v
  have hmod := groupKey_eq_mod v
  refine ⟨?_, ?_, ?_, hmod⟩
  · rw [is13_eq, groupKey_mod_8192, ← is13_eq]
  · rw [groupWidth_eq, groupKey_mod_8192, ← groupWidth_eq]
  · rw [hmod]
    exact Nat.mod_lt v (Nat.two_pow_pos _)

end Sys2Proof.Machine
end

section
/-! SUPPORT. The words of the input and output items: a flag above a data byte (30_encoding.md R60, R61). -/

namespace Sys2Proof

theorem getLsbD_8_append (f : Bool) (d : Byte) : (BitVec.ofBool f ++ d).getLsbD 8 = f := by
  rw [BitVec.getLsbD_append]
  cases f <;> rfl

theorem extractLsb'_append_data (f : Bool) (d : Byte) : (BitVec.ofBool f ++ d).extractLsb' 0 8 = d :=
  BitVec.extractLsb'_append_eq_right

theorem flag_append_data (w : ItemWord) : BitVec.ofBool (w.getLsbD 8) ++ w.extractLsb' 0 8 = w := by
  have hflag : BitVec.ofBool (w.getLsbD 8) = w.extractLsb' 8 1 := by
    ext i hi
    obtain rfl : i = 0 := by omega
    simp
  rw [hflag]
  exact BitVec.extractLsb'_append_extractLsb'

theorem outWordOk_eq_false_iff (w : ItemWord) : outWordOk w = false ↔ w.getLsbD 8 = true ∧ w ≠ 0x100#9 := by
  rw [outWordOk, Bool.or_eq_false_iff, Bool.not_eq_false', beq_eq_false_iff_ne]

theorem outItem_ofWord?_toWord (o : OutItem) : OutItem.ofWord? o.toWord = some o := by
  cases o with
  | data b =>
    rw [OutItem.ofWord?, OutItem.toWord, outWordOk, getLsbD_8_append, extractLsb'_append_data]
    rfl
  | endSeq => rfl

/-- Settles O41, from the two fields of a word. -/
theorem itemsAndTheirWordsCorrespond : Obligations.ItemsAndTheirWordsCorrespond := by
  refine ⟨fun w => ⟨flag_append_data w, rfl⟩, fun it => ?_, outItem_ofWord?_toWord, fun w => ?_, rfl⟩
  · rw [InItem.toWord, InItem.ofWord, getLsbD_8_append, extractLsb'_append_data]
  · rw [← outWordOk_eq_false_iff, OutItem.ofWord?]
    cases outWordOk w <;> simp

end Sys2Proof
end

section
/-! SUPPORT. The source's encoder algorithm in the block's own terms: the shared OR, the group's width, its key and its
digits (40_encoder.md R100, R102). -/

namespace Sys2Proof.Machine

variable {acc n a : Nat} {b : Byte}

/-- A byte that forms no group. -/
theorem encodeRef_cons_noGroup (c : Config) (bs : List Byte) (hn : n + 8 ≤ 13) :
    encodeRef c acc n (b :: bs) = encodeRef c (orAt acc b.toNat n) (n + 8) bs := by
  rw [encodeRef, if_pos hn]
  rfl

/-- A byte that forms a group: both widths in one. -/
theorem encodeRef_cons_group (c : Config) (bs : List Byte) (hn : ¬ n + 8 ≤ 13) (ha : orAt acc b.toNat n = a) :
    encodeRef c acc n (b :: bs) =
      romAlpha c (lowDigit (groupKey a)) :: romAlpha c (highDigit (groupKey a)) ::
        encodeRef c (a >>> groupWidth a) (n + 8 - groupWidth a) bs := by
  rw [orAt] at ha
  simp only [encodeRef, if_neg hn, ha, groupKey_eq, groupWidth_eq, Nat.shiftRight_eq_div_pow]
  split <;> rfl

theorem groupWidthsRef_cons_noGroup (bs : List Byte) (hn : n + 8 ≤ 13) :
    groupWidthsRef acc n (b :: bs) = groupWidthsRef (orAt acc b.toNat n) (n + 8) bs := by
  rw [groupWidthsRef, if_pos hn]
  rfl

theorem groupWidthsRef_cons_group (bs : List Byte) (hn : ¬ n + 8 ≤ 13) (ha : orAt acc b.toNat n = a) :
    groupWidthsRef acc n (b :: bs) =
      groupWidth a :: groupWidthsRef (a >>> groupWidth a) (n + 8 - groupWidth a) bs := by
  subst ha
  rw [groupWidthsRef, if_neg hn, Nat.shiftRight_eq_div_pow]
  rfl

theorem finalGroupRef_cons_noGroup (bs : List Byte) (hn : n + 8 ≤ 13) :
    finalGroupRef acc n (b :: bs) = finalGroupRef (orAt acc b.toNat n) (n + 8) bs := by
  rw [finalGroupRef, if_pos hn]
  rfl

theorem finalGroupRef_cons_group (bs : List Byte) (hn : ¬ n + 8 ≤ 13) (ha : orAt acc b.toNat n = a) :
    finalGroupRef acc n (b :: bs) = finalGroupRef (a >>> groupWidth a) (n + 8 - groupWidth a) bs := by
  subst ha
  rw [finalGroupRef, if_neg hn, Nat.shiftRight_eq_div_pow]
  rfl

/-! The final short group (30_encoding.md R70) -/

theorem encodeRef_nil_zero (c : Config) (acc : Nat) : encodeRef c acc 0 [] = [] := by
  rw [encodeRef, if_pos rfl]

theorem encodeRef_nil_one (c : Config) (hn : 0 < n) (h7 : n ≤ 7) (h90 : acc ≤ 90) :
    encodeRef c acc n [] = [romAlpha c (lowDigit acc)] := by
  rw [encodeRef, if_neg hn.ne', if_pos ⟨h7, h90⟩]
  rfl

theorem encodeRef_nil_two (c : Config) (hn : 0 < n) (h : 7 < n ∨ 90 < acc) :
    encodeRef c acc n [] = [romAlpha c (lowDigit acc), romAlpha c (highDigit acc)] := by
  rw [encodeRef, if_neg hn.ne', if_neg (by omega)]
  rfl

/-! The length of the output (30_encoding.md R72) -/

/-- How many symbols the final short group `(a, t)` takes (30_encoding.md R70). -/
def finalSymbols (g : Nat × Nat) : Nat :=
  if g.2 = 0 then 0 else if g.2 ≤ 7 ∧ g.1 ≤ 90 then 1 else 2

theorem length_encodeRef_nil (c : Config) (acc n : Nat) : (encodeRef c acc n []).length = finalSymbols (acc, n) := by
  rw [encodeRef, finalSymbols]
  split_ifs <;> rfl

/-- Two symbols a group, and those of the final short group (30_encoding.md R72). -/
theorem length_encodeRef (c : Config) (bs : List Byte) :
    (encodeRef c acc n bs).length = 2 * (groupWidthsRef acc n bs).length + finalSymbols (finalGroupRef acc n bs) := by
  induction bs generalizing acc n with
  | nil => simp [length_encodeRef_nil, groupWidthsRef, finalGroupRef]
  | cons b bs ih =>
    by_cases hn : n + 8 ≤ 13
    · rw [encodeRef_cons_noGroup c bs hn, groupWidthsRef_cons_noGroup bs hn, finalGroupRef_cons_noGroup bs hn, ih]
    · rw [encodeRef_cons_group c bs hn rfl, groupWidthsRef_cons_group bs hn rfl, finalGroupRef_cons_group bs hn rfl,
        List.length_cons, List.length_cons, ih, List.length_cons]
      omega

theorem mem_groupWidthsRef {bs : List Byte} {w : Nat} (hw : w ∈ groupWidthsRef acc n bs) : w = 13 ∨ w = 14 := by
  induction bs generalizing acc n with
  | nil => cases hw
  | cons b bs ih =>
    by_cases hn : n + 8 ≤ 13
    · exact ih (groupWidthsRef_cons_noGroup bs hn ▸ hw)
    · rw [groupWidthsRef_cons_group bs hn rfl, List.mem_cons] at hw
      obtain rfl | hw := hw
      · exact groupWidth_cases _
      · exact ih hw

/-- The bits that come in leave in a group or are left at the end, and what is left at the end is below `2 ^ t`
(30_encoding.md R70, R72). -/
theorem bits_of_groups (bs : List Byte) (hn : n ≤ 13) (hacc : acc < 2 ^ n) :
    n + 8 * bs.length = (groupWidthsRef acc n bs).sum + (finalGroupRef acc n bs).2 ∧
      (finalGroupRef acc n bs).2 ≤ 13 ∧ (finalGroupRef acc n bs).1 < 2 ^ (finalGroupRef acc n bs).2 := by
  induction bs generalizing acc n with
  | nil => exact ⟨by simp [groupWidthsRef, finalGroupRef], hn, hacc⟩
  | cons b bs ih =>
    have hor : orAt acc b.toNat n < 2 ^ (n + 8) := orAt_lt hacc b.isLt
    by_cases h : n + 8 ≤ 13
    · obtain ⟨hsum, hfinal⟩ := ih h hor
      rw [groupWidthsRef_cons_noGroup bs h, finalGroupRef_cons_noGroup bs h, List.length_cons]
      exact ⟨by omega, hfinal⟩
    · have hw := groupWidth_cases (orAt acc b.toNat n)
      have hrest := shiftRight_lt hor (show groupWidth (orAt acc b.toNat n) ≤ n + 8 by omega)
      obtain ⟨hsum, hfinal⟩ := ih (by omega) hrest
      rw [groupWidthsRef_cons_group bs h rfl, finalGroupRef_cons_group bs h rfl, List.length_cons, List.sum_cons]
      exact ⟨by omega, hfinal⟩

/-- Numbers of 13 and 14 add up to between 13 and 14 times their count. -/
theorem sum_bounds {l : List Nat} (h : ∀ w ∈ l, w = 13 ∨ w = 14) : 13 * l.length ≤ l.sum ∧ l.sum ≤ 14 * l.length := by
  have hlo := l.card_nsmul_le_sum 13 fun w hw => by have := h w hw; omega
  have hhi := l.sum_le_card_nsmul 14 fun w hw => by have := h w hw; omega
  rw [smul_eq_mul] at hlo hhi
  omega

theorem finalSymbols_le (g : Nat × Nat) : finalSymbols g ≤ 2 := by
  unfold finalSymbols
  split_ifs <;> decide

theorem finalSymbols_pos {g : Nat × Nat} (h : 0 < g.2) : 1 ≤ finalSymbols g := by
  rw [finalSymbols, if_neg h.ne']
  split <;> decide

/-- 608 bits with at most 13 of them left over make 43 to 46 groups. With 43 groups at least 6 bits are left, and they take
a symbol (30_encoding.md R72). -/
theorem symbols_of_608_bits {G S t f : Nat} (hlo : 13 * G ≤ S) (hhi : S ≤ 14 * G) (hbits : 608 = S + t) (ht : t ≤ 13)
    (hf : f ≤ 2) (hpos : 0 < t → 1 ≤ f) : 87 ≤ 2 * G + f ∧ 2 * G + f ≤ 94 := by
  omega

end Sys2Proof.Machine
end

section
/-! SUPPORT. A stream through the drivers NEXT, ENCODE and DECODE, for either direction: if every step of the block emits
what is owed first, then so does the whole run (42_interface_control.md R161, R167). -/

namespace Sys2Proof.Machine

/-- A block of direction `d` in a state the spec describes, with reset low and no host action coming: where the
drivers keep it. -/
structure State.Streams (s : State) (d : Dir) : Prop where
  ok : s.Ok
  dir : s.cfg.dir = d
  rst : s.rst = false
  host : s.host = []

/-- Of the bytes owed in `s` those left are owed in `t`: nothing is emitted and all are left, or the first is emitted, or
none was owed and END is emitted. -/
def State.Pays (s t : State) (owed left : List Byte) : Prop :=
  (t.outs = s.outs ∧ owed = left) ∨
  (∃ b, t.outs = s.outs ++ [.data b] ∧ owed = b :: left) ∨
  (t.outs = s.outs ++ [.endSeq] ∧ owed = [])

variable {s t : State} {d : Dir}

/-- A step there stands still or runs one micro-operation, not RESET. -/
theorem State.Streams.step_cases (hs : s.Streams d) (h : step s = .next t) :
    t = s ∨ ∃ i, i ≠ .reset ∧ exec i s = .next t := by
  rw [step_of_noHost hs.ok.1 hs.host] at h
  obtain ⟨rfl, -⟩ | ⟨i, hi⟩ := blockStep_cases h
  · exact .inl rfl
  · refine .inr ⟨i, ?_, hi⟩
    rintro rfl
    obtain ⟨-, hsel, -⟩ := (exec_eq_next_iff .reset s t).1 hi
    exact imp_of_clear hs.rst (select_facts hsel)

theorem State.Streams.of_step (hs : s.Streams d) (h : step s = .next t) : t.Streams d := by
  obtain rfl | ⟨i, hne, hi⟩ := hs.step_cases h
  · exact hs
  · have htok := exec_ok_of_next hi
    obtain ⟨-, -, rfl⟩ := (exec_eq_next_iff i s t).1 hi
    have hans := effect_answers hne s
    exact ⟨htok, by rw [effect_cfg]; exact hs.dir, hans.rst.trans hs.rst, hans.host.trans hs.host⟩

theorem State.Streams.request (hs : s.Streams d) : s.request.Streams d :=
  ⟨hs.ok, hs.dir, hs.rst, hs.host⟩

section
variable {owes : State → List Byte} (hpays : ∀ s t, s.Streams d → step s = .next t → s.Pays t (owes s) (owes t))
include hpays

/-- A NEXT answers with the first byte owed, or with END when nothing is owed. -/
theorem nextItem_pays {fuel : Nat} {item : OutItem} (hs : s.Streams d) (h : nextItem fuel s = some (item, t)) :
    t.Streams d ∧ ((∃ b, item = .data b ∧ owes s = b :: owes t) ∨ (item = .endSeq ∧ owes s = [])) := by
  induction fuel generalizing s with
  | zero => cases h
  | succ fuel ih =>
    rw [nextItem] at h
    split at h
    next u hu =>
      have hustreams := hs.of_step hu
      obtain ⟨houts, howes⟩ | ⟨b, houts, howes⟩ | ⟨houts, howes⟩ := hpays s u hs hu
      · rw [houts, List.getElem?_eq_none le_rfl] at h
        rw [howes]
        exact ih hustreams h
      · rw [houts, List.getElem?_concat_length] at h
        obtain ⟨rfl, rfl⟩ := Prod.mk.inj (Option.some.inj h)
        exact ⟨hustreams, .inl ⟨b, rfl, howes⟩⟩
      · rw [houts, List.getElem?_concat_length] at h
        obtain ⟨rfl, rfl⟩ := Prod.mk.inj (Option.some.inj h)
        exact ⟨hustreams, .inr ⟨rfl, howes⟩⟩
    all_goals cases h

/-- A run that ends has given all that was owed, and nothing else. -/
theorem collect_eq_owes (hreq : ∀ s, owes s.request = owes s) {fuel : Nat} {l : List Byte} (hs : s.Streams d)
    (h : collect fuel s = some l) : l = owes s := by
  induction fuel generalizing s l with
  | zero => cases h
  | succ fuel ih =>
    rw [collect] at h
    split at h
    next b t hnext =>
      obtain ⟨ht, ⟨b', hb, howes⟩ | ⟨hb, -⟩⟩ := nextItem_pays hpays hs.request hnext
      · obtain ⟨l', hl', rfl⟩ := Option.map_eq_some_iff.1 h
        obtain rfl := OutItem.data.inj hb
        rw [ih ht hl', ← hreq s, howes]
      · cases hb
    next t hnext =>
      obtain ⟨-, ⟨b, hb, -⟩ | ⟨-, howes⟩⟩ := nextItem_pays hpays hs.request hnext
      · cases hb
      · rw [← Option.some.inj h, ← hreq s, howes]
    next => cases h

end

theorem onStream_streams {c : Config} (hc : c.wf = true) (bs : List Byte) : (State.onStream c bs).Streams c.dir :=
  ⟨fresh_ok hc, rfl, rfl, rfl⟩

theorem offeredBytes_streamItems (bs : List Byte) : offeredBytes (streamItems bs) = bs := by
  induction bs with
  | nil => rfl
  | cons b bs ih => exact congrArg (b :: ·) ih

end Sys2Proof.Machine
end

section
/-! SUPPORT. Every step of an encoder emits what the source's algorithm owes (40_encoder.md R105). -/

namespace Sys2Proof.Machine

variable {s t : State}

/-- What an encoder that is to take an item owes. -/
theorem encOwes_of_idle (hp : s.pendV = false) (hd : s.done = false) :
    s.encOwes = encodeRef s.cfg s.acc s.nbits.toNat (offeredBytes s.inq) := by
  simp [State.encOwes, hp, hd]

/-- A pending symbol is owed first. -/
theorem encOwes_of_pending (hp : s.pendV = true) : s.encOwes = s.pend :: s.clearPendV.encOwes := by
  rw [State.encOwes, if_pos hp]
  rfl

/-- After the EOS item only a pending symbol is owed. -/
theorem encOwes_of_done (hd : s.done = true) : s.encOwes = if s.pendV then [s.pend] else [] := by
  simp [State.encOwes, hd]

theorem encFinish_encOwes (s : State) : (encFinish s).encOwes = if s.pendV then [s.pend] else [] :=
  encOwes_of_done rfl

/-- The final short group emits its low digit's symbol, and owes no more than its high digit's. -/
theorem encFinish_flushGroup_pays (hp : s.pendV = false) :
    s.Pays (encFinish (flushGroup s)) (encodeRef s.cfg s.acc s.nbits.toNat []) (encFinish (flushGroup s)).encOwes := by
  rw [encFinish_encOwes]
  obtain ⟨h0, heq⟩ | ⟨hpos, hle, hacc, heq⟩ | ⟨hpos, hgt, heq⟩ := flushGroup_cases s <;> rw [heq]
  · exact .inl ⟨rfl, by simp [h0, encodeRef_nil_zero, hp]⟩
  · exact .inr (.inl ⟨_, rfl, by simp [encodeRef_nil_one _ hpos hle hacc, hp]⟩)
  · exact .inr (.inl ⟨_, rfl, by simp [encodeRef_nil_two _ hpos hgt]⟩)

/-- A group emits its low digit's symbol, and owes its high digit's next. -/
theorem takeGroup_pays (h : s.HoldsAtMost 21) (hd : s.done = false) :
    s.Pays (takeGroup s)
      (romAlpha s.cfg (lowDigit (groupKey s.acc)) :: romAlpha s.cfg (highDigit (groupKey s.acc)) ::
        encodeRef s.cfg (s.acc >>> groupWidth s.acc) (s.nbits.toNat - groupWidth s.acc) (offeredBytes s.inq))
      (takeGroup s).encOwes := by
  have hcount : (takeGroup s).nbits.toNat = s.nbits.toNat - groupWidth s.acc :=
    count_toNat (by have := h.count; omega)
  have hacc : (takeGroup s).acc = s.acc >>> groupWidth s.acc := by
    rw [takeGroup_eq h.width h.count h.value]
  have hleft : (takeGroup s).clearPendV.encOwes = encodeRef s.cfg (takeGroup s).acc (takeGroup s).nbits.toNat
      (offeredBytes s.inq) := encOwes_of_idle rfl hd
  rw [encOwes_of_pending (s := takeGroup s) rfl, hleft, hcount, hacc]
  exact .inr (.inl ⟨_, rfl, rfl⟩)

/-- A byte is held and owed in the bits, or it forms a group. -/
theorem encByteEffect_pays (b : Byte) (hold : s.HoldsAtMost 13) (hp : s.pendV = false) (hd : s.done = false) :
    s.Pays (encByteEffect b s) (encodeRef s.cfg s.acc s.nbits.toNat (b :: offeredBytes s.inq))
      (encByteEffect b s).encOwes := by
  have hcount := absorbByte_nbits_toNat (b := b) hold
  have hacc : (absorbByte b s).acc = orAt s.acc b.toNat s.nbits.toNat := by
    rw [absorbByte_eq b hold.width hold.count hold.value]
  by_cases hn : s.nbits.toNat + 8 ≤ 13
  · rw [encByteEffect_noGroup hold (by omega), encodeRef_cons_noGroup _ _ hn,
      encOwes_of_idle (s := absorbByte b s) hp hd, hacc, hcount]
    exact .inl ⟨rfl, rfl⟩
  · have hpays := takeGroup_pays (absorbByte_holdsAtMost (b := b) hold) hd
    rw [hcount] at hpays
    rw [encByteEffect_group hold (by omega), encodeRef_cons_group _ _ hn hacc.symm]
    exact hpays

/-- Every step of an encoder's stream, micro-operation by micro-operation. -/
theorem encoder_step_pays (hs : s.Streams .enc) (h : step s = .next t) : s.Pays t s.encOwes t.encOwes := by
  obtain rfl | ⟨i, hne, hi⟩ := hs.step_cases h
  · exact .inl ⟨rfl, rfl⟩
  obtain ⟨-, hsel, rfl⟩ := (exec_eq_next_iff i s t).1 hi
  have hf := select_facts hsel
  cases i with
  | reset => exact absurd rfl hne
  | encEmit =>
    obtain ⟨-, -, -, hp⟩ := hf
    exact .inr (.inl ⟨s.pend, rfl, encOwes_of_pending hp⟩)
  | encEnd =>
    obtain ⟨-, -, -, hp, hd⟩ := hf
    exact .inr (.inr ⟨rfl, by simp [encOwes_of_done hd, hp]⟩)
  | encEos =>
    obtain ⟨-, -, -, hp, hd, d, rest, hq⟩ := hf
    rw [encOwes_of_idle hp hd, hq]
    exact encFinish_flushGroup_pays (s := s.take) hp
  | encByte b =>
    obtain ⟨-, -, -, hp, hd, rest, hq⟩ := hf
    have hpays := encByteEffect_pays (s := s.take) b (holdsAtMost_enc hs.ok hs.dir).take hp hd
    rw [State.take_inq, hq] at hpays
    rw [encOwes_of_idle hp hd, hq]
    exact hpays
  | decEmit | decEnd | decEos | decSym c =>
    obtain ⟨-, -, hdir, -⟩ := hf
    exact nomatch hs.dir.symm.trans hdir

/-- What ENCODE gives when it ends is what the source's algorithm gives. -/
theorem encodeStream_eq_encodeRef {c : Config} {bs symbols : List Byte} (hc : c.wf = true)
    (h : encodeStream c bs = some symbols) : symbols = encodeRef { c with dir := .enc } 0 0 bs := by
  have howes := collect_eq_owes (fun _ _ => encoder_step_pays) (fun _ => rfl)
    (onStream_streams (c := { c with dir := .enc }) hc bs) h
  rw [howes, encOwes_of_idle rfl rfl]
  exact congrArg _ (offeredBytes_streamItems bs)

/-- Settles O53: the run gives the source's algorithm's symbols, and the bits and symbols of its groups are counted by
induction on the input. -/
theorem theEncodedLengthFollowsTheGroupWidths : Obligations.TheEncodedLengthFollowsTheGroupWidths := by
  intro c bs symbols hc h widths a t
  have hlen : symbols.length = 2 * widths.length + finalSymbols (a, t) := by
    rw [encodeStream_eq_encodeRef hc h]
    exact length_encodeRef _ bs
  have hwidths : ∀ w ∈ widths, w = 13 ∨ w = 14 := fun w => mem_groupWidthsRef
  obtain ⟨hbits, ht, ha⟩ := bits_of_groups (n := 0) (acc := 0) bs (by decide) (by decide)
  rw [Nat.zero_add] at hbits
  refine ⟨hwidths, ht, ha, hbits, hlen, fun h76 => ?_⟩
  obtain ⟨hlo, hhi⟩ := sum_bounds hwidths
  rw [h76] at hbits
  rw [hlen]
  exact symbols_of_608_bits hlo hhi hbits ht (finalSymbols_le _) finalSymbols_pos

end Sys2Proof.Machine
end

section
/-! SUPPORT. A selected micro-operation on the way through the step: the word it forms, and what the step answers
(30_encoding.md R62 to R64). -/

namespace Sys2Proof.Machine

variable {s : State} {i : Instr}

/-- The word formed for a selected micro-operation matches its row. -/
theorem forms_of_select (hi : s.select = some i) : s.Forms (rowOf i).mask (rowOf i).pattern i := by
  obtain ⟨w, hw, hdec⟩ := (fetches_iff_select s i).2 hi
  obtain ⟨hmatch, -⟩ := (decodeSel_eq_ok_iff w i).1 hdec
  exact ⟨w, hw, eq_of_beq hmatch, hdec⟩

theorem blockStep_of_select (hs : s.Ok) (hi : s.select = some i) : blockStep s = .next (effect i s) := by
  obtain ⟨w, hw, hdec⟩ := (fetches_iff_select s i).2 hi
  rw [blockStep_of_fetch hw hdec, exec_ok hs hi]

theorem step_of_select (hs : s.Ok) (hh : s.host = []) (hi : s.select = some i) : step s = .next (effect i s) := by
  rw [step_of_noHost hs.1 hh, blockStep_of_select hs hi]

theorem blockStep_of_noSelect (hi : s.select = none) : blockStep s = .next s := by
  obtain ⟨i, w, hsome, -⟩ | ⟨-, hf | hf⟩ := fetch_agrees_select s
  · exact nomatch hi.symm.trans hsome
  · rw [blockStep, hf]
  · rw [blockStep, hf]

/-- Settles O30: the block stands still, or the selected micro-operation answers its effect. -/
theorem theBlockNeverFails : Obligations.TheBlockNeverFails := by
  intro s hs hh
  rw [step_of_noHost hs.1 hh]
  cases hi : s.select with
  | none => exact ⟨s, blockStep_of_noSelect hi⟩
  | some i => exact ⟨effect i s, blockStep_of_select hs hi⟩

end Sys2Proof.Machine
end

section
/-! SUPPORT. What an encoder emits: symbols of its alphabet, and END by ENC_END alone (40_encoder.md R107). -/

namespace Sys2Proof.Machine

variable {s t : State}

theorem pend_mem_alphabet (hs : s.Ok) (hd : s.cfg.dir = .enc) (hp : s.pendV = true) : s.pend ∈ s.cfg.alphabet := by
  obtain ⟨-, -, -, -, -, hpend⟩ := (r31_enc hd).1 hs.2
  exact ((encPendOk_iff s).1 (hpend hp)).1

/-- From `s` to `t` nothing is emitted, or one symbol of the alphabet. -/
def State.EmitsSymbol (s t : State) : Prop :=
  t.outs = s.outs ∨ ∃ b ∈ s.cfg.alphabet, t.outs = s.outs ++ [.data b]

theorem encByteEffect_emitsSymbol (b : Byte) (hc : s.cfg.wf = true) : s.EmitsSymbol (encByteEffect b s) := by
  unfold encByteEffect
  split
  · exact .inr ⟨_, romAlpha_mem hc (lowDigit_lt _), rfl⟩
  · exact .inl rfl

theorem encFinish_flushGroup_emitsSymbol (hc : s.cfg.wf = true) : s.EmitsSymbol (encFinish (flushGroup s)) := by
  obtain ⟨-, heq⟩ | ⟨-, -, -, heq⟩ | ⟨-, -, heq⟩ := flushGroup_cases s <;> rw [heq]
  · exact .inl rfl
  · exact .inr ⟨_, romAlpha_mem hc (lowDigit_lt _), rfl⟩
  · exact .inr ⟨_, romAlpha_mem hc (lowDigit_lt _), rfl⟩

/-- A micro-operation of an encoder emits at most one symbol, or it is ENC_END. -/
theorem encoder_emits {i : Instr} (hs : s.Ok) (hd : s.cfg.dir = .enc) (hi : s.select = some i) :
    s.EmitsSymbol (effect i s) ∨ (i = .encEnd ∧ (effect i s).outs = s.outs ++ [.endSeq]) := by
  have hf := select_facts hi
  cases i with
  | reset => exact .inl (.inl rfl)
  | encEmit =>
    obtain ⟨-, -, -, hp⟩ := hf
    exact .inl (.inr ⟨s.pend, pend_mem_alphabet hs hd hp, rfl⟩)
  | encEnd => exact .inr ⟨rfl, rfl⟩
  | encEos => exact .inl (encFinish_flushGroup_emitsSymbol (s := s.take) hs.1)
  | encByte b => exact .inl (encByteEffect_emitsSymbol (s := s.take) b hs.1)
  | decEmit | decEnd | decEos | decSym c =>
    obtain ⟨-, -, hdir, -⟩ := hf
    exact nomatch hd.symm.trans hdir

/-- The bytes emitted stay in the alphabet when at most END is added to what `EmitsSymbol` allows. -/
theorem outs_in_alphabet (h : s.EmitsSymbol t ∨ t.outs = s.outs ++ [.endSeq])
    (hs : ∀ b, OutItem.data b ∈ s.outs → b ∈ s.cfg.alphabet) : ∀ b, OutItem.data b ∈ t.outs → b ∈ s.cfg.alphabet := by
  intro b hb
  obtain (ho | ⟨c, hc, ho⟩) | ho := h <;> rw [ho] at hb
  · exact hs b hb
  · obtain hb | hb := List.mem_append.1 hb
    · exact hs b hb
    · exact OutItem.data.inj (List.mem_singleton.1 hb) ▸ hc
  · obtain hb | hb := List.mem_append.1 hb
    · exact hs b hb
    · exact nomatch List.mem_singleton.1 hb

/-- Settles O20: what is emitted by `encoder_emits`, and what is pending by I-d of R31, which every step keeps (O15). -/
theorem anEncoderKeepsToItsAlphabet : Obligations.AnEncoderKeepsToItsAlphabet := by
  rintro s t hs hd ⟨houts, -⟩ h
  have hcfg : t.cfg = s.cfg := noStepChangesTheConfiguration s t h
  refine ⟨?_, pend_mem_alphabet (everyStepKeepsTheRegisterInvariant s t hs h) (hcfg ▸ hd)⟩
  obtain ⟨u, hu, ht, -⟩ := step_phases h
  have hemit : s.EmitsSymbol u ∨ u.outs = s.outs ++ [.endSeq] := by
    obtain rfl | ⟨i, hi⟩ := hu
    · exact .inl (.inl rfl)
    · obtain ⟨hok, hsel, rfl⟩ := (exec_eq_next_iff i _ u).1 hi
      exact (encoder_emits hok hd hsel).imp_right And.right
  have htouts : t.outs = u.outs := by rw [ht]
  rw [hcfg, htouts]
  exact outs_in_alphabet hemit houts

/-! ### What is emitted and what is owed (40_encoder.md R105) -/

theorem outBytes_append (l m : List OutItem) : outBytes (l ++ m) = outBytes l ++ outBytes m := by
  induction l with
  | nil => rfl
  | cons o l ih =>
    cases o with
    | data b => exact congrArg (b :: ·) ih
    | endSeq => exact ih

/-- END is emitted only where nothing is owed, and then nothing is owed after it. -/
theorem encOwes_of_endSeq (hs : s.Streams .enc) (h : step s = .next t) (ho : t.outs = s.outs ++ [.endSeq]) :
    t.encOwes = s.encOwes := by
  obtain rfl | ⟨i, -, hi⟩ := hs.step_cases h
  · rfl
  · obtain ⟨-, hsel, rfl⟩ := (exec_eq_next_iff i s t).1 hi
    obtain (hsame | ⟨b, -, hdata⟩) | ⟨rfl, -⟩ := encoder_emits hs.ok hs.dir hsel
    · exact absurd (ho.symm.trans hsame) (by simp)
    · exact absurd (ho.symm.trans hdata) (by simp)
    · rfl

/-- Settles O45, by `encoder_step_pays`: what a step emits is the first byte owed, and END comes where none is. -/
theorem everyEncoderStepFollowsTheSourceAlgorithm : Obligations.EveryEncoderStepFollowsTheSourceAlgorithm := by
  intro s t hs hd hr hh h
  have hstream : s.Streams .enc := ⟨hs, hd, hr, hh⟩
  obtain ⟨ho, howes⟩ | ⟨b, ho, howes⟩ | ⟨ho, -⟩ := encoder_step_pays hstream h
  · rw [ho, howes]
  · rw [ho, howes, outBytes_append, List.append_assoc]
    rfl
  · rw [encOwes_of_endSeq hstream h ho, ho, outBytes_append]
    simp [outBytes]

end Sys2Proof.Machine
end

section
/-! SUPPORT. The source's encoder algorithm reads the alphabet table within its 91 entries (20_memory.md R44). -/

namespace Sys2Proof.Machine

/-- The symbols of the final short group. -/
theorem mem_alphabet_of_mem_encodeRef_nil {c : Config} {acc n : Nat} {x : Byte} (hc : c.wf = true) (hacc : acc ≤ 8280)
    (hx : x ∈ encodeRef c acc n []) : x ∈ c.alphabet := by
  have hlow : romAlpha c (lowDigit acc) ∈ c.alphabet := romAlpha_mem hc (lowDigit_lt acc)
  have hhigh : romAlpha c (highDigit acc) ∈ c.alphabet := romAlpha_mem hc (highDigit_lt hacc)
  obtain rfl | hn := Nat.eq_zero_or_pos n
  · exact nomatch encodeRef_nil_zero c acc ▸ hx
  · by_cases hone : n ≤ 7 ∧ acc ≤ 90
    · rw [encodeRef_nil_one c hn hone.1 hone.2, List.mem_singleton] at hx
      exact hx ▸ hlow
    · rw [encodeRef_nil_two c hn (by omega), List.mem_pair] at hx
      obtain rfl | rfl := hx
      · exact hlow
      · exact hhigh

/-- From an accumulator of at most 13 bits all that the source's algorithm gives is in the alphabet. -/
theorem mem_alphabet_of_mem_encodeRef {c : Config} {acc n : Nat} {x : Byte} (bs : List Byte) (hc : c.wf = true)
    (hn : n ≤ 13) (hacc : acc < 2 ^ n) (hx : x ∈ encodeRef c acc n bs) : x ∈ c.alphabet := by
  induction bs generalizing acc n with
  | nil =>
    have : acc < 2 ^ 13 := hacc.trans_le (Nat.pow_le_pow_right (by decide) hn)
    exact mem_alphabet_of_mem_encodeRef_nil hc (by omega) hx
  | cons b bs ih =>
    have hor : orAt acc b.toNat n < 2 ^ (n + 8) := orAt_lt hacc b.isLt
    by_cases h : n + 8 ≤ 13
    · exact ih h hor (encodeRef_cons_noGroup c bs h ▸ hx)
    · have hw := groupWidth_cases (orAt acc b.toNat n)
      rw [encodeRef_cons_group c bs h rfl, List.mem_cons, List.mem_cons] at hx
      obtain rfl | rfl | hx := hx
      · exact romAlpha_mem hc (lowDigit_lt _)
      · exact romAlpha_mem hc (highDigit_lt (groupKey_le _))
      · exact ih (by omega) (shiftRight_lt hor (by omega)) hx

/-- Settles O51: ENCODE gives what the source's algorithm gives, and that is in the alphabet. -/
theorem encodeGivesOnlySymbols : Obligations.EncodeGivesOnlySymbols := by
  intro c bs symbols hc h b hb
  rw [encodeStream_eq_encodeRef hc h] at hb
  exact mem_alphabet_of_mem_encodeRef (c := { c with dir := .enc }) bs hc (by decide) (by decide) hb

end Sys2Proof.Machine
end

section
/-! SUPPORT. The whole next state of each of the encoder's micro-operations (40_encoder.md R100 to R104). -/

namespace Sys2Proof.Machine

variable {s : State}

/-- Absorbing a byte and then taking a group, in one: the group is that of the OR. -/
theorem takeGroup_absorbByte_eq (b : Byte) (h : s.HoldsAtMost 13) :
    let a := orAt s.acc b.toNat s.nbits.toNat
    takeGroup (absorbByte b s) =
      { s with
        acc := a >>> groupWidth a, nbits := BitVec.ofNat 5 (s.nbits.toNat + 8 - groupWidth a)
        pendV := true, pend := romAlpha s.cfg (highDigit (groupKey a))
        outs := s.outs ++ [.data (romAlpha s.cfg (lowDigit (groupKey a)))], nextReq := false } := by
  have hmid := absorbByte_holdsAtMost (b := b) h
  rw [takeGroup_eq hmid.width hmid.count hmid.value, absorbByte_nbits_toNat h,
    absorbByte_eq b h.width h.count h.value]

theorem take_eq {it : InItem} {rest : List InItem} (hq : s.inq = it :: rest) : s.take = { s with inq := rest } := by
  rw [State.take, hq, List.tail_cons]

/-- Settles O1, by the two branches of ENC_BYTE and, with a group, the two widths. -/
theorem encByteAbsorbsAByteAndFormsAGroup : Obligations.EncByteAbsorbsAByteAndFormsAGroup := by
  rintro s b rest ⟨⟨hs, hd, hr, hn⟩, hp, hdone, hq⟩ n a
  have hi : s.select = some (.encByte b) := select_of_facts ⟨hr, hn, hd, hp, hdone, rest, hq⟩
  refine ⟨forms_of_select hi, ?_⟩
  rw [exec_ok hs hi, effect, take_eq hq]
  have hold : State.HoldsAtMost { s with inq := rest } 13 := holdsAtMost_enc (s := { s with inq := rest }) hs hd
  by_cases h13 : n + 8 ≤ 13
  · rw [if_pos h13, encByteEffect_noGroup hold (by dsimp only; omega),
      absorbByte_eq b hold.width hold.count hold.value]
    rfl
  · rw [if_neg h13, encByteEffect_group hold (by dsimp only; omega), takeGroup_absorbByte_eq b hold]
    by_cases hkey : (a &&& 8191) > 88
    · have h13bit : is13 a = true := decide_eq_true hkey
      have hw : groupWidth a = 13 := if_pos h13bit
      have hk : groupKey a = a &&& 8191 := if_pos h13bit
      rw [if_pos hkey, ← hk, ← hw]
      rfl
    · have h14bit : ¬ is13 a = true := fun h => hkey (of_decide_eq_true h)
      have hw : groupWidth a = 14 := if_neg h14bit
      have hk : groupKey a = a &&& 16383 := if_neg h14bit
      rw [if_neg hkey, ← hk, ← hw]
      rfl

/-- Settles O2, by the three cases of the final short group. -/
theorem encEosWritesTheFinalShortGroup : Obligations.EncEosWritesTheFinalShortGroup := by
  rintro s d rest ⟨⟨hs, hd, hr, hn⟩, hp, hdone, hq⟩
  have hi : s.select = some .encEos := select_of_facts ⟨hr, hn, hd, hp, hdone, d, rest, hq⟩
  refine ⟨forms_of_select hi, ?_⟩
  rw [exec_ok hs hi, effect, take_eq hq, encFinish_eq]
  obtain ⟨h0, heq⟩ | ⟨hpos, h7, h90, heq⟩ | ⟨hpos, htwo, heq⟩ := flushGroup_cases { s with inq := rest } <;> rw [heq]
  · rw [if_pos h0]
  · rw [if_neg hpos.ne', if_neg (not_or.2 ⟨h7.not_gt, h90.not_gt⟩)]
    rfl
  · rw [if_neg hpos.ne', if_pos htwo]
    rfl

/-- Settles O3: the meaning as it stands, once it is selected. -/
theorem encEmitEmitsThePendingSymbol : Obligations.EncEmitEmitsThePendingSymbol := by
  rintro s ⟨hs, hd, hr, hn⟩ hp
  have hi : s.select = some .encEmit := select_of_facts ⟨hr, hn, hd, hp⟩
  exact ⟨forms_of_select hi, exec_ok hs hi⟩

/-- Settles O4: the meaning as it stands, once it is selected. -/
theorem encEndAnswersTheEndOfTheSequence : Obligations.EncEndAnswersTheEndOfTheSequence := by
  rintro s ⟨hs, hd, hr, hn⟩ hp hdone
  have hi : s.select = some .encEnd := select_of_facts ⟨hr, hn, hd, hp, hdone⟩
  exact ⟨forms_of_select hi, exec_ok hs hi⟩

end Sys2Proof.Machine
end

section
/-! SUPPORT. Further items behind those offered: nothing but the input stream sees them (40_encoder.md R108). -/

namespace Sys2Proof.Machine

/-- The state with further items offered behind the others. -/
def State.withLater (later : List InItem) (s : State) : State :=
  { s with inq := s.inq ++ later }

variable {s : State} (later : List InItem)

theorem select_withLater {i : Instr} (hi : s.select = some i) : (s.withLater later).select = some i := by
  refine select_of_facts ?_
  have hf := select_facts hi
  cases i with
  | reset | encEmit | encEnd | decEmit | decEnd => exact hf
  | encEos | decEos =>
    obtain ⟨hr, hn, hd, hp, hdone, d, rest, hq⟩ := hf
    exact ⟨hr, hn, hd, hp, hdone, d, rest ++ later, congrArg (· ++ later) hq⟩
  | encByte b | decSym b =>
    obtain ⟨hr, hn, hd, hp, hdone, rest, hq⟩ := hf
    exact ⟨hr, hn, hd, hp, hdone, rest ++ later, congrArg (· ++ later) hq⟩

/-- Taking the head of the items leaves those behind. -/
theorem take_withLater (h : ∃ it, s.inq = it :: s.inq.tail) : (s.withLater later).take = s.take.withLater later := by
  obtain ⟨it, hq⟩ := h
  rw [take_eq hq, take_eq (s := s.withLater later) (congrArg (· ++ later) hq)]
  rfl

theorem encByteEffect_withLater (b : Byte) (s : State) :
    encByteEffect b (s.withLater later) = (encByteEffect b s).withLater later := by
  simp only [encByteEffect, apply_ite (State.withLater later)]
  rfl

theorem encFinish_flushGroup_withLater (s : State) :
    encFinish (flushGroup (s.withLater later)) = (encFinish (flushGroup s)).withLater later := by
  simp only [flushGroup, apply_ite encFinish, apply_ite (State.withLater later)]
  rfl

theorem decFinish_flushDigit_withLater (s : State) :
    decFinish (flushDigit (s.withLater later)) = (decFinish (flushDigit s)).withLater later := by
  simp only [flushDigit, apply_ite decFinish, apply_ite (State.withLater later)]
  rfl

theorem decSymEffect_withLater (e : Digit) (s : State) :
    decSymEffect e (s.withLater later) = (decSymEffect e s).withLater later := by
  simp only [decSymEffect, drain, apply_ite (State.withLater later)]
  rfl

/-- A selected micro-operation takes at most the head item, and does the same whatever is behind. -/
theorem effect_withLater {i : Instr} (hi : s.select = some i) :
    effect i (s.withLater later) = (effect i s).withLater later := by
  have htake (ht : takesInput i = true) : (s.withLater later).take = s.take.withLater later :=
    take_withLater later (exists_head_of_takesInput hi ht)
  cases i with
  | reset | encEmit | encEnd | decEmit | decEnd => rfl
  | encEos => rw [effect, htake rfl, encFinish_flushGroup_withLater]; rfl
  | encByte b => rw [effect, htake rfl, encByteEffect_withLater]; rfl
  | decEos => rw [effect, htake rfl, decFinish_flushDigit_withLater]; rfl
  | decSym c => rw [effect, htake rfl, decSymEffect_withLater]; rfl

/-- Settles O44: the items behind change neither the selection nor R31, and the effect leaves them where they are. -/
theorem laterItemsDoNotChangeASelectedMicroOperation : Obligations.LaterItemsDoNotChangeASelectedMicroOperation := by
  intro i s t later h
  obtain ⟨hs, hi, rfl⟩ := (exec_eq_next_iff i s t).1 h
  exact (exec_eq_next_iff i _ _).2 ⟨hs, select_withLater later hi, (effect_withLater later hi).symm⟩

end Sys2Proof.Machine
end

section
/-! SUPPORT. How many micro-operations a NEXT of an encoder takes (40_encoder.md R105, 70_reset_and_hazards.md R230). -/

namespace Sys2Proof.Machine

variable {s t : State}

/-! ### The driver NEXT, one step at a time -/

theorem nextItem_of_emitted {item : OutItem} (fuel : Nat) (h : step s = .next t) (ho : t.outs = s.outs ++ [item]) :
    nextItem (fuel + 1) s = some (item, t) := by
  simp only [nextItem, h, ho, List.getElem?_concat_length]

theorem nextItem_of_silent (fuel : Nat) (h : step s = .next t) (ho : t.outs = s.outs) :
    nextItem (fuel + 1) s = nextItem fuel t := by
  simp only [nextItem, h, ho, List.getElem?_eq_none le_rfl]

/-- A micro-operation that emits nothing leaves the NEXT outstanding. -/
theorem pulled_of_silent {i : Instr} {d : Dir} (hs : s.Pulled d) (hi : s.select = some i)
    (ho : (effect i s).outs = s.outs) : (effect i s).Pulled d ∧ (effect i s).host = s.host := by
  obtain ⟨hok, hd, hr, hn⟩ := hs
  have hne : i ≠ .reset := by
    rintro rfl
    exact imp_of_clear hr (select_facts hi)
  have hans := effect_answers hne s
  exact ⟨⟨exec_ok_of_next (exec_ok hok hi), by rw [effect_cfg]; exact hd, hans.rst.trans hr,
    (hans.nextReq_of_outs ho).trans hn⟩, hans.host⟩

/-! ### The encoder -/

/-- The encoder's next micro-operation emits: EMIT or END, or ENC_BYTE or ENC_EOS with at least 6 bits held. -/
def State.EmitsNext (s : State) : Prop :=
  s.pendV = true ∨ s.done = true ∨ (6 ≤ s.nbits.toNat ∧ s.inq ≠ [])

/-- Any bit left makes ENC_EOS emit. -/
theorem encFinish_flushGroup_emits (hn : 0 < s.nbits.toNat) :
    ∃ item, (encFinish (flushGroup s)).outs = s.outs ++ [item] := by
  obtain ⟨h0, -⟩ | ⟨-, -, -, heq⟩ | ⟨-, -, heq⟩ := flushGroup_cases s
  · exact absurd h0 hn.ne'
  · exact ⟨_, by rw [heq]; rfl⟩
  · exact ⟨_, by rw [heq]; rfl⟩

theorem encFinish_flushGroup_silent (hn : s.nbits.toNat = 0) : (encFinish (flushGroup s)).outs = s.outs := by
  obtain ⟨-, heq⟩ | ⟨hpos, -⟩ | ⟨hpos, -⟩ := flushGroup_cases s
  · rw [heq]; rfl
  all_goals exact absurd hn hpos.ne'

theorem encByteEffect_emits (b : Byte) (h : s.HoldsAtMost 13) (hn : 6 ≤ s.nbits.toNat) :
    ∃ item, (encByteEffect b s).outs = s.outs ++ [item] :=
  ⟨_, by rw [encByteEffect_group h hn]; rfl⟩

theorem emits_of_emitsNext (hs : s.Pulled .enc) (h : s.EmitsNext) :
    ∃ i item, s.select = some i ∧ (effect i s).outs = s.outs ++ [item] := by
  obtain ⟨hok, hd, hr, hn⟩ := hs
  cases hp : s.pendV with
  | true => exact ⟨.encEmit, _, select_of_facts ⟨hr, hn, hd, hp⟩, rfl⟩
  | false =>
    cases hdone : s.done with
    | true => exact ⟨.encEnd, _, select_of_facts ⟨hr, hn, hd, hp, hdone⟩, rfl⟩
    | false =>
      obtain ⟨h6, hne⟩ : 6 ≤ s.nbits.toNat ∧ s.inq ≠ [] := by simpa [State.EmitsNext, hp, hdone] using h
      obtain ⟨⟨eos, b⟩, rest, hq⟩ := List.exists_cons_of_ne_nil hne
      cases eos with
      | true =>
        obtain ⟨item, ho⟩ := encFinish_flushGroup_emits (s := s.take) (show 0 < s.nbits.toNat by omega)
        exact ⟨.encEos, item, select_of_facts ⟨hr, hn, hd, hp, hdone, b, rest, hq⟩, ho⟩
      | false =>
        obtain ⟨item, ho⟩ := encByteEffect_emits (s := s.take) b (holdsAtMost_enc (s := s.take) hok hd) h6
        exact ⟨.encByte b, item, select_of_facts ⟨hr, hn, hd, hp, hdone, rest, hq⟩, ho⟩

/-- Else the EOS item, or a byte with an item behind it, makes the micro-operation after this one emit: the EOS item sets
`DONE`, and a byte leaves at least 8 bits. -/
theorem silent_then_emitsNext {it : InItem} {rest : List InItem} (hs : s.Pulled .enc) (h : ¬ s.EmitsNext)
    (hq : s.inq = it :: rest) (hmore : it.eos = true ∨ rest ≠ []) :
    ∃ i, s.select = some i ∧
      ((∃ item, (effect i s).outs = s.outs ++ [item]) ∨ ((effect i s).outs = s.outs ∧ (effect i s).EmitsNext)) := by
  obtain ⟨hok, hd, hr, hn⟩ := hs
  have hq0 : s.inq ≠ [] := hq ▸ List.cons_ne_nil _ _
  obtain ⟨hp, hdone, h6⟩ : s.pendV = false ∧ s.done = false ∧ s.nbits.toNat < 6 := by
    simpa [State.EmitsNext, hq0] using h
  obtain ⟨eos, b⟩ := it
  cases eos with
  | true =>
    refine ⟨.encEos, select_of_facts ⟨hr, hn, hd, hp, hdone, b, rest, hq⟩, ?_⟩
    obtain h0 | hpos := Nat.eq_zero_or_pos s.nbits.toNat
    · exact .inr ⟨encFinish_flushGroup_silent (s := s.take) h0, .inr (.inl rfl)⟩
    · exact .inl (encFinish_flushGroup_emits (s := s.take) hpos)
  | false =>
    have hold : s.take.HoldsAtMost 13 := holdsAtMost_enc (s := s.take) hok hd
    have hcount : (absorbByte b s.take).nbits.toNat = s.nbits.toNat + 8 := absorbByte_nbits_toNat hold
    have hrest : (absorbByte b s.take).inq = rest := congrArg List.tail hq
    refine ⟨.encByte b, select_of_facts ⟨hr, hn, hd, hp, hdone, rest, hq⟩, .inr ?_⟩
    rw [effect, encByteEffect_noGroup hold (Nat.le_of_lt_succ h6)]
    exact ⟨rfl, .inr (.inr ⟨by omega, by rw [hrest]; simpa using hmore⟩)⟩

/-- Settles O42: this micro-operation emits, or the one after it does. -/
theorem anEncoderNextTakesAtMostTwoMicroOperations : Obligations.AnEncoderNextTakesAtMostTwoMicroOperations := by
  intro s hs hh h
  by_cases hnow : s.EmitsNext
  · obtain ⟨i, item, hi, ho⟩ := emits_of_emitsNext hs hnow
    exact ⟨item, _, nextItem_of_emitted 1 (step_of_select hs.1 hh hi) ho⟩
  · obtain ⟨it, rest, hq, hmore⟩ : ∃ it rest, s.inq = it :: rest ∧ (it.eos = true ∨ rest ≠ []) := by
      obtain hp | hdone | hlen | h6 | ⟨d, hq⟩ := h
      · exact absurd (.inl hp) hnow
      · exact absurd (.inr (.inl hdone)) hnow
      · match hq : s.inq with
        | [] | [_] => simp [hq] at hlen
        | it :: it' :: rest => exact ⟨it, _, rfl, .inr (List.cons_ne_nil it' rest)⟩
      · exact absurd (.inr (.inr h6)) hnow
      · exact ⟨_, _, hq, .inl rfl⟩
    obtain ⟨i, hi, ⟨item, ho⟩ | ⟨ho, hnext⟩⟩ := silent_then_emitsNext hs hnow hq hmore
    · exact ⟨item, _, nextItem_of_emitted 1 (step_of_select hs.1 hh hi) ho⟩
    · obtain ⟨hpulled, hhost⟩ := pulled_of_silent hs hi ho
      obtain ⟨j, item, hj, ho'⟩ := emits_of_emitsNext hpulled hnext
      refine ⟨item, effect j (effect i s), ?_⟩
      rw [nextItem_of_silent 1 (step_of_select hs.1 hh hi) ho]
      exact nextItem_of_emitted 0 (step_of_select hpulled.1 (hhost.trans hh) hj) ho'

end Sys2Proof.Machine
end

section
/-! SUPPORT. The end of a stream, for either direction: while it is offered or already taken, every NEXT is answered, and
a run of the drivers ends (41_decoder.md R142, 42_interface_control.md R161, R167, 70_reset_and_hazards.md R230). -/

namespace Sys2Proof.Machine

variable {s : State} {d : Dir} {i : Instr}

/-- The stream has ended, or the EOS item is among the items offered. -/
def State.HasEnd (s : State) : Prop :=
  s.done = true ∨ ∃ it ∈ s.inq, it.eos = true

theorem ne_reset_of_select (hr : s.rst = false) (hi : s.select = some i) : i ≠ .reset := by
  rintro rfl
  exact imp_of_clear hr (select_facts hi)

/-- With the stream's end offered or taken the block never waits (42_interface_control.md R163). -/
theorem exists_select_of_hasEnd (hs : s.Pulled d) (he : s.HasEnd) : ∃ i, s.select = some i := by
  obtain ⟨-, -, hr, hn⟩ := hs
  cases hp : s.pendV with
  | true => exact ⟨s.byDir .encEmit .decEmit, by simp [State.select, hr, hn, hp]⟩
  | false =>
    cases hdone : s.done with
    | true => exact ⟨s.byDir .encEnd .decEnd, by simp [State.select, hr, hn, hp, hdone]⟩
    | false =>
      obtain ⟨it, hmem, -⟩ := he.resolve_left (imp_of_clear hdone)
      obtain ⟨head, rest, hq⟩ := List.exists_cons_of_ne_nil (List.ne_nil_of_mem hmem)
      cases heos : head.eos with
      | true => exact ⟨s.byDir .encEos .decEos, by simp [State.select, hr, hn, hp, hdone, hq, heos]⟩
      | false =>
        exact ⟨s.byDir (.encByte head.data) (.decSym head.data),
          by simp [State.select, hr, hn, hp, hdone, hq, heos]⟩

/-- A micro-operation other than RESET emits an item, or it takes one. -/
theorem emits_or_takes (hi : s.select = some i) (hne : i ≠ .reset) :
    (∃ item, (effect i s).outs = s.outs ++ [item]) ∨
    ((effect i s).outs = s.outs ∧ (effect i s).inq.length < s.inq.length) := by
  have hans := effect_answers hne s
  cases ht : takesInput i with
  | true =>
    obtain ⟨it, hq⟩ := exists_head_of_takesInput hi ht
    have hlen : (effect i s).inq.length < s.inq.length := by
      rw [hans.inq, State.takeFor, if_pos ht, hq]
      exact Nat.lt_succ_self _
    obtain ⟨ho, -⟩ | ⟨item, ho, -⟩ := hans.answer
    · exact .inr ⟨ho, hlen⟩
    · exact .inl ⟨item, ho⟩
  | false =>
    cases i with
    | reset => exact absurd rfl hne
    | encEmit | encEnd | decEmit | decEnd => exact .inl ⟨_, rfl⟩
    | encEos | encByte b | decEos | decSym c => cases ht

/-- The data item a micro-operation takes leaves the EOS item behind it. -/
theorem hasEnd_of_tail {t : State} {b : Byte} {rest : List InItem} (he : s.HasEnd) (hdone : s.done = false)
    (hq : s.inq = ⟨false, b⟩ :: rest) (ht : t.inq = s.inq.tail) : t.HasEnd := by
  obtain ⟨it, hmem, heos⟩ := he.resolve_left (imp_of_clear hdone)
  rw [hq] at hmem ht
  obtain rfl | hmem := List.mem_cons.1 hmem
  · cases heos
  · exact .inr ⟨it, ht ▸ hmem, heos⟩

/-- The stream's end is not lost: the EOS item sets `DONE`, and only RESET clears it. -/
theorem effect_hasEnd (hi : s.select = some i) (hne : i ≠ .reset) (he : s.HasEnd) : (effect i s).HasEnd := by
  have hf := select_facts hi
  have hans := effect_answers hne s
  cases i with
  | reset => exact absurd rfl hne
  | encEmit | encEnd | decEmit | decEnd => exact he
  | encEos | decEos => exact .inl rfl
  | encByte b | decSym b =>
    obtain ⟨-, -, -, -, hdone, rest, hq⟩ := hf
    exact hasEnd_of_tail he hdone hq hans.inq

/-- A NEXT is answered within one step more than there are items offered: every step before the answer takes an item. -/
theorem nextItem_answers {fuel : Nat} (hs : s.Pulled d) (hh : s.host = []) (he : s.HasEnd)
    (hf : s.inq.length < fuel) : ∃ item t, nextItem fuel s = some (item, t) ∧ t.HasEnd := by
  induction fuel generalizing s with
  | zero => exact absurd hf (Nat.not_lt_zero _)
  | succ fuel ih =>
    obtain ⟨i, hi⟩ := exists_select_of_hasEnd hs he
    have hstep := step_of_select hs.1 hh hi
    have ⟨_, _, hr, _⟩ := hs
    have hne := ne_reset_of_select hr hi
    have he' := effect_hasEnd hi hne he
    obtain ⟨item, ho⟩ | ⟨ho, hlen⟩ := emits_or_takes hi hne
    · exact ⟨item, _, nextItem_of_emitted fuel hstep ho, he'⟩
    · obtain ⟨hpulled, hhost⟩ := pulled_of_silent hs hi ho
      rw [nextItem_of_silent fuel hstep ho]
      exact ih hpulled (hhost.trans hh) he' (by omega)

/-- Settles O43, by `nextItem_answers`: every step before the answer takes one of the items up to the EOS item, and after
that item DEC_END answers. -/
theorem aDecoderNextEndsAtTheEosItemAtTheLatest : Obligations.ADecoderNextEndsAtTheEosItemAtTheLatest := by
  intro s hs hh heos
  obtain ⟨item, t, h, -⟩ := nextItem_answers hs hh (.inr heos) (Nat.lt_succ_self _)
  exact ⟨item, t, h⟩

/-- A run to the stream's end gives what was owed at its start, when it may ask for one item more than that. -/
theorem collect_eq_some_owes {owes : State → List Byte}
    (hpays : ∀ s t, s.Streams d → step s = .next t → s.Pays t (owes s) (owes t))
    (hreq : ∀ s, owes s.request = owes s) {fuel : Nat} (hs : s.Streams d) (he : s.HasEnd)
    (hf : (owes s).length < fuel) : collect fuel s = some (owes s) := by
  induction fuel generalizing s with
  | zero => exact absurd hf (Nat.not_lt_zero _)
  | succ fuel ih =>
    have hpulled : s.request.Pulled d := ⟨hs.ok, hs.dir, hs.rst, rfl⟩
    obtain ⟨item, t, hnext, he'⟩ :=
      nextItem_answers (fuel := s.inq.length + 2) hpulled hs.host he (by simp)
    obtain ⟨ht, hitem⟩ := nextItem_pays hpays hs.request hnext
    rw [hreq] at hitem
    obtain ⟨b, rfl, howes⟩ | ⟨rfl, howes⟩ := hitem
    · rw [howes, List.length_cons] at hf
      simp only [collect, hnext, ih ht he' (by omega), howes, Option.map_some]
    · simp only [collect, hnext, howes]

theorem onStream_hasEnd (c : Config) (bs : List Byte) : (State.onStream c bs).HasEnd :=
  .inr ⟨⟨true, 0⟩, List.mem_append_right _ (List.mem_singleton_self _), rfl⟩

end Sys2Proof.Machine
end

section
/-! SUPPORT. The source's decoder algorithm in the block's own terms: the inverse table, the shared OR, the pair's width
and the bytes drained (41_decoder.md R130 to R134). -/

namespace Sys2Proof.Machine

variable {c : Config} {acc n d a m : Nat} {x : Byte}

theorem digitOf?_of_not_mem (hx : x ∉ c.alphabet) : digitOf? c x = none :=
  findIdx?_of_not_mem hx

/-- The source's lookup finds the digit that the inverse table stores. -/
theorem digitOf?_of_mem (hc : c.wf = true) (hx : x ∈ c.alphabet) : digitOf? c x = some (romInv c x).toNat := by
  obtain ⟨i, hi⟩ := List.mem_iff_getElem?.1 hx
  rw [digitOf?, findIdx?_of_getElem? hc hi, romInv_toNat hc hi]

theorem pairWidth_eq (pv : Nat) : pairWidth pv = groupWidth pv :=
  (groupWidth_eq pv).symm

/-- A byte outside the alphabet is skipped. -/
theorem decodeRef_cons_skip (fd : Option Nat) (xs : List Byte) (hx : x ∉ c.alphabet) :
    decodeRef c acc n fd (x :: xs) = decodeRef c acc n fd xs := by
  simp only [decodeRef, digitOf?_of_not_mem hx]

/-- A first digit is held. -/
theorem decodeRef_cons_first (xs : List Byte) (hc : c.wf = true) (hx : x ∈ c.alphabet) :
    decodeRef c acc n none (x :: xs) = decodeRef c acc n (some (romInv c x).toNat) xs := by
  simp only [decodeRef, digitOf?_of_mem hc hx]

/-- A pair makes `m` bits `a`, of which one byte is written, or two. -/
theorem decodeRef_cons_pair (xs : List Byte) (hc : c.wf = true) (hx : x ∈ c.alphabet)
    (ha : orAt acc (pairValue d (romInv c x).toNat) n = a)
    (hm : n + groupWidth (pairValue d (romInv c x).toNat) = m) :
    decodeRef c acc n (some d) (x :: xs) =
      if m < 16 then lowByte a :: decodeRef c (a >>> 8) (m - 8) none xs
      else lowByte a :: lowByte (a >>> 8) :: decodeRef c ((a >>> 8) >>> 8) (m - 16) none xs := by
  rw [orAt, pairValue] at ha
  rw [pairValue] at hm
  have h8 (v : Nat) : v >>> 8 = v / 256 := Nat.shiftRight_eq_div_pow v 8
  simp only [decodeRef, digitOf?_of_mem hc hx, ha, pairWidth_eq, hm, lowByte, h8, Nat.div_div_eq_div_mul,
    Nat.reduceMul]

/-- At most two bytes come out for each byte in, and one for a digit held at the end. -/
theorem length_decodeRef_le (hc : c.wf = true) (fd : Option Nat) (xs : List Byte) :
    (decodeRef c acc n fd xs).length ≤ 2 * xs.length + 1 := by
  induction xs generalizing acc n fd with
  | nil => cases fd <;> simp [decodeRef]
  | cons x xs ih =>
    rw [List.length_cons]
    by_cases hx : x ∈ c.alphabet
    · cases fd with
      | none =>
        rw [decodeRef_cons_first xs hc hx]
        exact (ih _).trans (by omega)
      | some d =>
        rw [decodeRef_cons_pair xs hc hx rfl rfl]
        split
        · exact Nat.succ_le_succ ((ih _).trans (by omega))
        · exact Nat.succ_le_succ (Nat.succ_le_succ (ih _))
    · rw [decodeRef_cons_skip fd xs hx]
      exact (ih _).trans (by omega)

/-- Wherever a byte outside the alphabet stands, it makes no difference (41_decoder.md R140). -/
theorem decodeRef_insert (front back : List Byte) (fd : Option Nat) (hx : x ∉ c.alphabet) :
    decodeRef c acc n fd (front ++ x :: back) = decodeRef c acc n fd (front ++ back) := by
  induction front generalizing acc n fd with
  | nil => exact decodeRef_cons_skip fd back hx
  | cons y front ih => simp only [List.cons_append, decodeRef, ih]

end Sys2Proof.Machine
end

section
/-! SUPPORT. Every step of a decoder emits what the source's algorithm owes (41_decoder.md R138). -/

namespace Sys2Proof.Machine

variable {s t : State}

/-- Of the bytes owed in `s` those left are owed in `t`, and the step does not emit END: `State.Pays` without its last
case. -/
def State.PaysData (s t : State) (owed left : List Byte) : Prop :=
  (t.outs = s.outs ∧ owed = left) ∨ ∃ b, t.outs = s.outs ++ [.data b] ∧ owed = b :: left

theorem State.PaysData.pays {owed left : List Byte} (h : s.PaysData t owed left) : s.Pays t owed left :=
  h.imp_right .inl

/-- What is emitted and what is owed make up the same bytes before and after. -/
theorem State.PaysData.outBytes_append_eq {owed left : List Byte} (h : s.PaysData t owed left) :
    outBytes t.outs ++ left = outBytes s.outs ++ owed := by
  obtain ⟨ho, rfl⟩ | ⟨b, ho, rfl⟩ := h
  · rw [ho]
  · rw [ho, outBytes_append, List.append_assoc]
    rfl

/-- What a decoder that is to take an item owes. -/
theorem decOwes_of_idle (hp : s.pendV = false) (hd : s.done = false) :
    s.decOwes = decodeRef s.cfg s.acc s.nbits.toNat s.heldDigit (offeredBytes s.inq) := by
  simp [State.decOwes, hp, hd]

/-- A pending byte is owed first. -/
theorem decOwes_of_pending (hp : s.pendV = true) : s.decOwes = s.pend :: s.clearPendV.decOwes := by
  rw [State.decOwes, if_pos hp]
  rfl

/-- After the EOS item nothing is owed, since nothing is pending then. -/
theorem decOwes_of_done (hp : s.pendV = false) (hd : s.done = true) : s.decOwes = [] := by
  simp [State.decOwes, hp, hd]

theorem heldDigit_of_fdV (hf : s.fdV = true) : s.heldDigit = some s.fd.toNat :=
  if_pos hf

theorem heldDigit_of_not_fdV (hf : s.fdV = false) : s.heldDigit = none :=
  if_neg (Bool.eq_false_iff.1 hf)

theorem lowByte_and_255 (v : Nat) : lowByte (v &&& 255) = lowByte v := by
  rw [and_255]
  exact BitVec.eq_of_toNat_eq (by simp [lowByte])

/-- A held digit makes DEC_EOS emit one byte, and the rest is dropped. -/
theorem decFinish_flushDigit_pays (hp : s.pendV = false) :
    s.PaysData (decFinish (flushDigit s)) (decodeRef s.cfg s.acc s.nbits.toNat s.heldDigit [])
      (decFinish (flushDigit s)).decOwes := by
  have hleft : (decFinish (flushDigit s)).decOwes = [] := decOwes_of_done ((flushDigit_pendV s).trans hp) rfl
  rw [hleft, flushDigit]
  cases hf : s.fdV with
  | true => exact .inr ⟨_, rfl, by rw [heldDigit_of_fdV hf]; rfl⟩
  | false => exact .inl ⟨rfl, by rw [heldDigit_of_not_fdV hf]; rfl⟩

/-- The drain emits the low byte, and owes the next one where it buffers it. -/
theorem drain_pays (h : s.HoldsAtMost 21) (hp : s.pendV = false) (hd : s.done = false) (hf : s.fdV = false) :
    s.PaysData (drain s)
      (if s.nbits.toNat < 16 then
        lowByte s.acc :: decodeRef s.cfg (s.acc >>> 8) (s.nbits.toNat - 8) none (offeredBytes s.inq)
       else
        lowByte s.acc :: lowByte (s.acc >>> 8) ::
          decodeRef s.cfg ((s.acc >>> 8) >>> 8) (s.nbits.toNat - 16) none (offeredBytes s.inq))
      (drain s).decOwes := by
  have hle := h.count
  obtain ⟨hlt, heq⟩ | ⟨hge, heq⟩ := drain_cases h.width h.count h.value
  · have hcount : (BitVec.ofNat 5 (s.nbits.toNat - 8)).toNat = s.nbits.toNat - 8 := count_toNat (by omega)
    rw [if_pos (by omega), heq, decOwes_of_idle (by exact hp) (by exact hd), heldDigit_of_not_fdV (by exact hf)]
    exact .inr ⟨_, rfl, by rw [lowByte_and_255, hcount]⟩
  · have hcount : (BitVec.ofNat 5 (s.nbits.toNat - 16)).toNat = s.nbits.toNat - 16 := count_toNat (by omega)
    rw [if_neg (by omega), heq, decOwes_of_pending (by rfl), decOwes_of_idle (by rfl) (by exact hd),
      heldDigit_of_not_fdV (by exact hf)]
    refine .inr ⟨_, rfl, ?_⟩
    simp only [lowByte_and_255, State.clearPendV_acc, State.clearPendV_nbits, State.clearPendV_inq,
      State.clearPendV_cfg, hcount]

/-- A byte is skipped, held as a first digit, or completes a pair. -/
theorem decSymEffect_pays (x : Byte) (hs : s.Ok) (hdir : s.cfg.dir = .dec) (hp : s.pendV = false)
    (hd : s.done = false) :
    s.PaysData (decSymEffect (romInv s.cfg x) s)
      (decodeRef s.cfg s.acc s.nbits.toNat s.heldDigit (x :: offeredBytes s.inq))
      (decSymEffect (romInv s.cfg x) s).decOwes := by
  cases he : isDigit (romInv s.cfg x) with
  | false =>
    have hx : x ∉ s.cfg.alphabet := fun hx => imp_of_clear he ((isDigit_romInv hs.1 x).2 hx)
    rw [decSymEffect_skip he, decodeRef_cons_skip _ _ hx, decOwes_of_idle hp hd]
    exact .inl ⟨rfl, rfl⟩
  | true =>
    have hx : x ∈ s.cfg.alphabet := (isDigit_romInv hs.1 x).1 he
    cases hf : s.fdV with
    | false =>
      rw [decSymEffect_first he hf, heldDigit_of_not_fdV hf, decodeRef_cons_first _ hs.1 hx,
        decOwes_of_idle (by exact hp) (by exact hd)]
      exact .inl ⟨rfl, rfl⟩
    | true =>
      have hold := holdsAtMost_dec hs hdir
      have hfd := fd_le hs hdir hf
      have hacc : orAt s.acc (pairValue s.fd.toNat (romInv s.cfg x).toNat) s.nbits.toNat =
          (absorbPair (romInv s.cfg x) s).acc := by
        rw [absorbPair_eq hold.width hold.count hold.value hfd (digit_le he)]
      rw [decSymEffect_pair he hf, heldDigit_of_fdV hf,
        decodeRef_cons_pair _ hs.1 hx hacc (absorbPair_nbits_toNat hold).symm]
      exact drain_pays (absorbPair_holdsAtMost hold hfd (digit_le he)) hp hd rfl

/-- Every step of a decoder's stream, micro-operation by micro-operation: END comes where nothing is owed. -/
theorem decoder_step_pays_or_ends (hs : s.Streams .dec) (h : step s = .next t) :
    s.PaysData t s.decOwes t.decOwes ∨ (t = s.emit .endSeq ∧ s.decOwes = []) := by
  obtain rfl | ⟨i, hne, hi⟩ := hs.step_cases h
  · exact .inl (.inl ⟨rfl, rfl⟩)
  obtain ⟨-, hsel, rfl⟩ := (exec_eq_next_iff i s t).1 hi
  have hf := select_facts hsel
  cases i with
  | reset => exact absurd rfl hne
  | decEmit =>
    obtain ⟨-, -, -, hp⟩ := hf
    exact .inl (.inr ⟨s.pend, rfl, decOwes_of_pending hp⟩)
  | decEnd =>
    obtain ⟨-, -, -, hp, hd⟩ := hf
    exact .inr ⟨rfl, decOwes_of_done hp hd⟩
  | decEos =>
    obtain ⟨-, -, -, hp, hd, d, rest, hq⟩ := hf
    rw [decOwes_of_idle hp hd, hq]
    exact .inl (decFinish_flushDigit_pays (s := s.take) hp)
  | decSym c =>
    obtain ⟨-, -, hdir, hp, hd, rest, hq⟩ := hf
    have hpays := decSymEffect_pays (s := s.take) c hs.ok hdir hp hd
    rw [State.take_inq, hq] at hpays
    rw [decOwes_of_idle hp hd, hq]
    exact .inl hpays
  | encEmit | encEnd | encEos | encByte b =>
    obtain ⟨-, -, hdir, -⟩ := hf
    exact nomatch hs.dir.symm.trans hdir

theorem decoder_step_pays (hs : s.Streams .dec) (h : step s = .next t) : s.Pays t s.decOwes t.decOwes := by
  obtain hpays | ⟨rfl, howes⟩ := decoder_step_pays_or_ends hs h
  · exact hpays.pays
  · exact .inr (.inr ⟨rfl, howes⟩)

/-- Settles O46, by `decoder_step_pays_or_ends`: a byte emitted is the first byte owed, and END is no byte and
changes no register. -/
theorem everyDecoderStepFollowsTheSourceAlgorithm : Obligations.EveryDecoderStepFollowsTheSourceAlgorithm := by
  intro s t hs hd hr hh h
  obtain hpays | ⟨rfl, -⟩ := decoder_step_pays_or_ends ⟨hs, hd, hr, hh⟩ h
  · exact hpays.outBytes_append_eq
  · have howes : (s.emit .endSeq).decOwes = s.decOwes := rfl
    rw [howes, State.emit_outs, outBytes_append]
    simp [outBytes]

/-- DECODE ends, and gives what the source's algorithm gives. -/
theorem decodeStream_eq_decodeRef {c : Config} (hc : c.wf = true) (bs : List Byte) :
    decodeStream c bs = some (decodeRef { c with dir := .dec } 0 0 none bs) := by
  have howes : (State.onStream { c with dir := .dec } bs).decOwes = decodeRef { c with dir := .dec } 0 0 none bs :=
    (decOwes_of_idle rfl rfl).trans (congrArg _ (offeredBytes_streamItems bs))
  have hlen := length_decodeRef_le (c := { c with dir := .dec }) (acc := 0) (n := 0) hc none bs
  rw [← howes] at hlen ⊢
  exact collect_eq_some_owes (fun _ _ => decoder_step_pays) (fun _ => rfl)
    (onStream_streams (c := { c with dir := .dec }) hc bs) (onStream_hasEnd _ bs) (by omega)

/-- Settles O52: DECODE is the source's algorithm, which skips the byte wherever it stands. -/
theorem insertedNoiseDoesNotChangeDecode : Obligations.InsertedNoiseDoesNotChangeDecode := by
  intro c front back x hc hx
  rw [decodeStream_eq_decodeRef hc, decodeStream_eq_decodeRef hc]
  exact congrArg some (decodeRef_insert (c := { c with dir := .dec }) front back none hx)

end Sys2Proof.Machine
end

section
/-! SUPPORT. The whole next state of each of the decoder's micro-operations (41_decoder.md R131 to R137). -/

namespace Sys2Proof.Machine

variable {s : State} {c : Byte} {rest : List InItem}

/-- DEC_SYM runs its effect on the state without the item taken. -/
theorem exec_decSym_of_takes (h : s.Takes .dec ⟨false, c⟩ rest) :
    exec (.decSym c) s = .next (decSymEffect (romInv s.cfg c) { s with inq := rest }) := by
  obtain ⟨⟨hs, hd, hr, hn⟩, hp, hdone, hq⟩ := h
  have hi : s.select = some (.decSym c) := select_of_facts ⟨hr, hn, hd, hp, hdone, rest, hq⟩
  rw [exec_ok hs hi, effect, take_eq hq]

/-- Settles O5: the inverse table has the sentinel there. -/
theorem decSymSkipsAByteOutsideTheAlphabet : Obligations.DecSymSkipsAByteOutsideTheAlphabet := by
  intro s c rest h hc
  have hskip : isDigit (romInv s.cfg c) = false := by rw [romInv_of_not_mem hc]; rfl
  rw [exec_decSym_of_takes h, decSymEffect_skip hskip]

/-- Settles O6: the inverse table has the digit there, and FIRST holds it. -/
theorem decSymHoldsAFirstDigit : Obligations.DecSymHoldsAFirstDigit := by
  intro s c rest e h he hf
  have ⟨⟨⟨hwf, _⟩, _⟩, _⟩ := h
  have hdigit := (isDigit_romInv hwf c).2 (List.mem_of_getElem? he)
  rw [exec_decSym_of_takes h, decSymEffect_first hdigit (by exact hf), romInv_of_getElem? hwf he]
  rfl

/-- Settles O7: the pair is absorbed with nothing cut off, and the drain takes one byte or two. -/
theorem decSymFormsAPairAndDrainsBytes : Obligations.DecSymFormsAPairAndDrainsBytes := by
  intro s c rest e h he hf pv a m
  have ⟨⟨hs, hd, _, _⟩, _⟩ := h
  have hwidth : s.nbits.toNat + groupWidth pv = m := by simp only [m, groupWidth, is13, decide_eq_true_eq]
  have hdigit := (isDigit_romInv hs.1 c).2 (List.mem_of_getElem? he)
  have hold : State.HoldsAtMost { s with inq := rest } 7 := holdsAtMost_dec (s := { s with inq := rest }) hs hd
  have hfd := fd_le hs hd hf
  have hmid := absorbPair_holdsAtMost hold hfd (digit_le hdigit)
  have hcount := absorbPair_nbits_toNat (e := romInv s.cfg c) hold
  have heq := absorbPair_eq hold.width hold.count hold.value hfd (digit_le hdigit)
  rw [romInv_toNat hs.1 he] at hcount heq
  replace hcount := hcount.trans hwidth
  rw [exec_decSym_of_takes h, decSymEffect_pair hdigit (by exact hf)]
  obtain ⟨hlt, hdrain⟩ | ⟨hge, hdrain⟩ := drain_cases hmid.width hmid.count hmid.value <;>
    rw [hdrain, hcount, heq]
  · rw [if_neg (by omega)]
    rfl
  · rw [if_pos (by omega), Nat.sub_sub]
    rfl

/-- Settles O8: with a held digit its byte is emitted first, and the done state is the same. -/
theorem decEosCompletesAHeldDigitOrDropsTheRest : Obligations.DecEosCompletesAHeldDigitOrDropsTheRest := by
  rintro s d rest ⟨⟨hs, hd, hr, hn⟩, hp, hdone, hq⟩
  have hi : s.select = some .decEos := select_of_facts ⟨hr, hn, hd, hp, hdone, d, rest, hq⟩
  refine ⟨forms_of_select hi, ?_⟩
  rw [exec_ok hs hi, effect, take_eq hq, decFinish_eq, flushDigit]
  cases hf : s.fdV with
  | true => rfl
  | false => rfl

/-- Settles O9: the meaning as it stands, once it is selected. -/
theorem decEmitEmitsThePendingByte : Obligations.DecEmitEmitsThePendingByte := by
  rintro s ⟨hs, hd, hr, hn⟩ hp
  have hi : s.select = some .decEmit := select_of_facts ⟨hr, hn, hd, hp⟩
  exact ⟨forms_of_select hi, exec_ok hs hi⟩

/-- Settles O10: with `DONE` set nothing is pending (I-e of 10_state.md R31), so DEC_END is selected. -/
theorem decEndAnswersTheEndOfTheSequence : Obligations.DecEndAnswersTheEndOfTheSequence := by
  rintro s ⟨hs, hd, hr, hn⟩ hdone
  obtain ⟨-, -, -, -, hclear, -⟩ := (r31_dec hd).1 hs.2
  obtain ⟨-, -, -, hp⟩ := hclear hdone
  have hi : s.select = some .decEnd := select_of_facts ⟨hr, hn, hd, hp, hdone⟩
  exact ⟨forms_of_select hi, exec_ok hs hi⟩

end Sys2Proof.Machine
end

section
/-! SUPPORT. ENCODE and DECODE compute the source's algorithms, which depend on the alphabet but not on the
direction (42_interface_control.md R167, 40_encoder.md R105, 41_decoder.md R138). -/

namespace Sys2Proof.Machine

theorem encodeRef_withDir (c : Config) (d : Dir) (acc n : Nat) (bs : List Byte) :
    encodeRef { c with dir := d } acc n bs = encodeRef c acc n bs := by
  induction bs generalizing acc n with
  | nil => rfl
  | cons b bs ih =>
    simp only [encodeRef, ih]
    rfl

theorem decodeRef_withDir (c : Config) (d : Dir) (acc n : Nat) (fd : Option Nat) (bs : List Byte) :
    decodeRef { c with dir := d } acc n fd bs = decodeRef c acc n fd bs := by
  induction bs generalizing acc n fd with
  | nil => rfl
  | cons b bs ih =>
    simp only [decodeRef, ih]
    rfl

/-- At most two symbols come out for each byte in, and two for the final short group: every group takes at
least 13 bits. -/
theorem length_encodeRef_le (c : Config) (bs : List Byte) : (encodeRef c 0 0 bs).length ≤ 2 * bs.length + 2 := by
  obtain ⟨hbits, -⟩ := bits_of_groups (n := 0) (acc := 0) bs (by decide) (by decide)
  obtain ⟨hlo, -⟩ := sum_bounds fun w => mem_groupWidthsRef (acc := 0) (n := 0) (bs := bs)
  have hfinal := finalSymbols_le (finalGroupRef 0 0 bs)
  rw [length_encodeRef]
  omega

/-- Settles O47: the run gives what is owed at its start, by `encoder_step_pays`, and that is short enough for the
driver's bound. -/
theorem encodeComputesTheSourceAlgorithm : Obligations.EncodeComputesTheSourceAlgorithm := by
  intro c bs hc
  have howes : (State.onStream { c with dir := .enc } bs).encOwes = encodeRef c 0 0 bs :=
    (encOwes_of_idle rfl rfl).trans
      ((encodeRef_withDir c .enc 0 0 _).trans (congrArg _ (offeredBytes_streamItems bs)))
  have hlen := length_encodeRef_le c bs
  rw [← howes] at hlen ⊢
  exact collect_eq_some_owes (fun _ _ => encoder_step_pays) (fun _ => rfl)
    (onStream_streams (c := { c with dir := .enc }) hc bs) (onStream_hasEnd _ bs) (by omega)

/-- Settles O48, by `decodeStream_eq_decodeRef`: the algorithm does not depend on the direction. -/
theorem decodeComputesTheSourceAlgorithm : Obligations.DecodeComputesTheSourceAlgorithm :=
  fun c bs hc => (decodeStream_eq_decodeRef hc bs).trans (congrArg some (decodeRef_withDir c .dec 0 0 none bs))

/-- Settles O50: both algorithms give nothing for nothing. -/
theorem theEmptyInputGivesTheEmptyOutput : Obligations.TheEmptyInputGivesTheEmptyOutput :=
  fun c hc => ⟨encodeComputesTheSourceAlgorithm c [] hc, decodeComputesTheSourceAlgorithm c [] hc⟩

end Sys2Proof.Machine
end

section
/-! SUPPORT. The source's decoder algorithm undoes its encoder algorithm (42_interface_control.md R168): the invariant is
the bits in flight between the two, which a group moves from one to the other. -/

namespace Sys2Proof.Machine

theorem orAt_assoc (u v x m n : Nat) : orAt u (orAt v x n) m = orAt (orAt u v m) x (m + n) := by
  simp only [orAt, Nat.shiftLeft_or_distrib, Nat.or_assoc, ← Nat.shiftLeft_add, Nat.add_comm m n]

/-- The group and the bits above it make up the value again (30_encoding.md R69). -/
theorem orAt_groupKey (a : Nat) : orAt (groupKey a) (a >>> groupWidth a) (groupWidth a) = a := by
  rw [groupKey_eq_mod, orAt_eq_add _ (Nat.mod_lt a (Nat.two_pow_pos _)), Nat.shiftRight_eq_div_pow,
    Nat.mod_add_div']

theorem lowByte_orAt {n : Nat} (v x : Nat) (hn : 8 ≤ n) : lowByte (orAt v x n) = lowByte v := by
  apply BitVec.eq_of_getLsbD_eq
  intro i hi
  simp only [lowByte, BitVec.getLsbD_ofNat, orAt, Nat.testBit_or, Nat.testBit_shiftLeft]
  simp [show ¬ n ≤ i by omega]

theorem orAt_shiftRight_of_le {n : Nat} (v x : Nat) (hn : 8 ≤ n) : orAt v x n >>> 8 = orAt (v >>> 8) x (n - 8) := by
  obtain ⟨k, rfl⟩ := Nat.exists_eq_add_of_le' hn
  rw [orAt, orAt, Nat.shiftRight_or_distrib, Nat.shiftLeft_add, Nat.shiftLeft_shiftRight, Nat.add_sub_cancel]

/-! ### The bytes in flight -/

/-- The low `k` bytes of a number, in the order the decoder drains them (41_decoder.md R134). -/
def lowBytes : Nat → Nat → List Byte
  | 0, _ => []
  | k + 1, v => lowByte v :: lowBytes k (v >>> 8)

theorem lowBytes_succ_orAt {n : Nat} (k v x : Nat) (hn : 8 ≤ n) :
    lowBytes (k + 1) (orAt v x n) = lowByte v :: lowBytes k (orAt (v >>> 8) x (n - 8)) := by
  rw [lowBytes, lowByte_orAt v x hn, orAt_shiftRight_of_le v x hn]

/-- A byte OR'd in above `k` bytes comes out after them. -/
theorem lowBytes_orAt {k v : Nat} (b : Byte) (hv : v < 2 ^ (8 * k)) :
    lowBytes (k + 1) (orAt v b.toNat (8 * k)) = lowBytes k v ++ [b] := by
  induction k generalizing v with
  | zero =>
    obtain rfl : v = 0 := by simpa using hv
    simp [lowBytes, orAt, lowByte]
  | succ k ih =>
    have h8 : 8 ≤ 8 * (k + 1) := by omega
    rw [lowBytes_succ_orAt _ _ _ h8]
    exact congrArg (lowByte v :: ·) (ih (shiftRight_lt hv h8))

/-- The two symbols of a group value make the decoder's algorithm hold that value's bits above its own. -/
theorem decodeRef_symbols {c : Config} {acc n key : Nat} (xs : List Byte) (hc : c.wf = true) (hkey : key ≤ 8280) :
    decodeRef c acc n none (romAlpha c (lowDigit key) :: romAlpha c (highDigit key) :: xs) =
      if n + groupWidth key < 16 then
        lowByte (orAt acc key n) :: decodeRef c (orAt acc key n >>> 8) (n + groupWidth key - 8) none xs
      else
        lowByte (orAt acc key n) :: lowByte (orAt acc key n >>> 8) ::
          decodeRef c ((orAt acc key n >>> 8) >>> 8) (n + groupWidth key - 16) none xs := by
  have hlow := romInv_toNat hc (romAlpha_getElem? hc (lowDigit_lt key))
  have hhigh := romInv_toNat hc (romAlpha_getElem? hc (highDigit_lt hkey))
  rw [decodeRef_cons_first _ hc (romAlpha_mem hc (lowDigit_lt key)), hlow]
  exact decodeRef_cons_pair _ hc (romAlpha_mem hc (highDigit_lt hkey)) (by rw [hhigh, pairValue_digits])
    (by rw [hhigh, pairValue_digits])

/-- The bits that have gone into an encoder and not yet come out of the decoder that reads it: the decoder holds the
first `m` of them as `held`, the encoder the next `n` as `acc`, and together they are `k` whole bytes. -/
structure InFlight (held m acc n k : Nat) : Prop where
  count : m ≤ 7
  value : held < 2 ^ m
  encValue : acc < 2 ^ n
  bits : m + n = 8 * k

variable {c : Config} {held m acc n k : Nat}

/-- The encoder takes a byte. -/
theorem InFlight.absorb (h : InFlight held m acc n k) (b : Byte) :
    InFlight held m (orAt acc b.toNat n) (n + 8) (k + 1) :=
  ⟨h.count, h.value, orAt_lt h.encValue b.isLt, by have := h.bits; omega⟩

/-- A byte taken by the encoder is the last of those in flight. -/
theorem InFlight.lowBytes_absorb (h : InFlight held m acc n k) (b : Byte) :
    lowBytes (k + 1) (orAt held (orAt acc b.toNat n) m) = lowBytes k (orAt held acc m) ++ [b] := by
  have hlt := orAt_lt h.value h.encValue
  rw [h.bits] at hlt
  rw [orAt_assoc, h.bits, lowBytes_orAt b hlt]

/-- A group goes from the encoder to the decoder: the decoder writes the first of the bytes in flight, one or two, and
the others stay in flight. -/
theorem InFlight.decodeRef_group (h : InFlight held m acc n k) (hc : c.wf = true) (hn : 14 ≤ n) (hn' : n ≤ 21)
    (xs : List Byte) :
    ∃ out held' m' k', InFlight held' m' (acc >>> groupWidth acc) (n - groupWidth acc) k' ∧
      decodeRef c held m none
        (romAlpha c (lowDigit (groupKey acc)) :: romAlpha c (highDigit (groupKey acc)) :: xs) =
        out ++ decodeRef c held' m' none xs ∧
      lowBytes k (orAt held acc m) = out ++ lowBytes k' (orAt held' (acc >>> groupWidth acc) m') := by
  obtain ⟨hm, hheld, hacc, hbits⟩ := h
  have hw := groupWidth_cases acc
  obtain ⟨-, hwidth, hkey, -⟩ := theDecoderRecoversTheGroupWidth acc
  have hall : orAt held acc m = orAt (orAt held (groupKey acc) m) (acc >>> groupWidth acc) (m + groupWidth acc) := by
    rw [← orAt_assoc, orAt_groupKey]
  have hlt := orAt_lt hheld hkey
  have hleft : acc >>> groupWidth acc < 2 ^ (n - groupWidth acc) := shiftRight_lt hacc (by omega)
  have h8 := shiftRight_lt hlt (show 8 ≤ m + groupWidth acc by omega)
  rw [decodeRef_symbols xs hc (groupKey_le acc), hwidth, hall]
  by_cases h16 : m + groupWidth acc < 16
  · obtain ⟨j, rfl⟩ : ∃ j, k = j + 1 := Nat.exists_eq_add_one.2 (by omega)
    rw [if_pos h16, lowBytes_succ_orAt _ _ _ (by omega)]
    exact ⟨[_], _, _, j, ⟨by omega, h8, hleft, by omega⟩, rfl, rfl⟩
  · obtain ⟨j, rfl⟩ : ∃ j, k = j + 2 := Nat.exists_eq_add_of_le' (by omega)
    rw [if_neg h16, lowBytes_succ_orAt _ _ _ (by omega), lowBytes_succ_orAt _ _ _ (by omega)]
    have hrest := shiftRight_lt h8 (show 8 ≤ m + groupWidth acc - 8 by omega)
    exact ⟨[_, _], _, m + groupWidth acc - 16, j, ⟨by omega, hrest, hleft, by omega⟩, rfl, rfl⟩

/-- The final short group completes the bytes in flight and no byte more (30_encoding.md R70, 41_decoder.md R135). One
symbol leaves a held digit. Two leave a pair, which stands for 13 or 14 bits even if fewer were left: with at least 7
bits left it takes the decoder to 16 bits only if two bytes are in flight. -/
theorem InFlight.decodeRef_nil (h : InFlight held m acc n k) (hc : c.wf = true) (hn : n ≤ 13) :
    decodeRef c held m none (encodeRef c acc n []) = lowBytes k (orAt held acc m) := by
  obtain ⟨hm, hheld, hacc, hbits⟩ := h
  obtain rfl | hpos := Nat.eq_zero_or_pos n
  · obtain rfl : k = 0 := by omega
    rw [encodeRef_nil_zero]
    rfl
  by_cases hone : n ≤ 7 ∧ acc ≤ 90
  · obtain rfl : k = 1 := by omega
    have hlow : lowDigit acc = acc := Nat.mod_eq_of_lt (by omega)
    have hdigit := romInv_toNat hc (romAlpha_getElem? hc (lowDigit_lt acc))
    rw [encodeRef_nil_one c hpos hone.1 hone.2, decodeRef_cons_first _ hc (romAlpha_mem hc (lowDigit_lt acc)),
      hdigit, hlow]
    rfl
  · have hle : acc < 2 ^ 13 := hacc.trans_le (Nat.pow_le_pow_right (by decide) hn)
    have hseven : 7 ≤ n := by
      by_contra hlt
      have : acc < 2 ^ 6 := hacc.trans_le (Nat.pow_le_pow_right (by decide) (by omega))
      omega
    have hw := groupWidth_cases acc
    rw [encodeRef_nil_two c hpos (by omega), decodeRef_symbols _ hc (by omega)]
    by_cases h16 : m + groupWidth acc < 16
    · obtain rfl : k = 1 := by omega
      rw [if_pos h16]
      rfl
    · obtain rfl : k = 2 := by omega
      rw [if_neg h16]
      rfl

/-- The decoder's algorithm on the encoder's output gives the bytes in flight, and then the encoder's remaining
input. -/
theorem InFlight.decodeRef_encodeRef (h : InFlight held m acc n k) (hc : c.wf = true) (hn : n ≤ 13) (bs : List Byte) :
    decodeRef c held m none (encodeRef c acc n bs) = lowBytes k (orAt held acc m) ++ bs := by
  induction bs generalizing held m acc n k with
  | nil => rw [List.append_nil, h.decodeRef_nil hc hn]
  | cons b bs ih =>
    have hb := h.absorb b
    rw [List.append_cons, ← h.lowBytes_absorb b]
    by_cases h13 : n + 8 ≤ 13
    · rw [encodeRef_cons_noGroup c bs h13]
      exact ih hb h13
    · have hw := groupWidth_cases (orAt acc b.toNat n)
      rw [encodeRef_cons_group c bs h13 rfl]
      obtain ⟨out, held', m', k', h', hdec, hbytes⟩ := hb.decodeRef_group hc (by omega) (by omega) _
      rw [hdec, hbytes, ih h' (by omega), List.append_assoc]

/-- Settles O49: both drivers compute the source's algorithms, and at the start nothing is in flight. -/
theorem decodingAnEncodingGivesTheInputBack : Obligations.DecodingAnEncodingGivesTheInputBack := by
  intro c bs hc
  have hstart : InFlight 0 0 0 0 0 := ⟨by decide, by decide, by decide, rfl⟩
  refine ⟨_, encodeComputesTheSourceAlgorithm c bs hc, ?_⟩
  rw [decodeComputesTheSourceAlgorithm c _ hc, hstart.decodeRef_encodeRef hc (by decide) bs]
  rfl

end Sys2Proof.Machine
end

section
/-! SUPPORT. The control of the block: reset, an idle block and a waiting one (42_interface_control.md R160, R161,
R163). -/

namespace Sys2Proof.Machine

/-- Settles O11: reset comes first in the selection, and RESET's effect is the state stated. -/
theorem resetClearsEveryRegisterAndAbandonsTheNext : Obligations.ResetClearsEveryRegisterAndAbandonsTheNext := by
  intro s hr
  have hi : s.select = some .reset := select_of_facts hr
  exact ⟨forms_of_select hi, fun hs => exec_ok hs hi⟩

theorem select_of_not_nextReq {s : State} (hr : s.rst = false) (hn : s.nextReq = false) : s.select = none := by
  simp [State.select, hr, hn]

/-- Settles O32: without a NEXT nothing is selected. -/
theorem anIdleBlockKeepsItsState : Obligations.AnIdleBlockKeepsItsState := by
  intro s hs hh hr hn
  rw [step_of_noHost hs.1 hh, blockStep_of_noSelect (select_of_not_nextReq hr hn)]

/-- When a block with a NEXT outstanding waits (42_interface_control.md R163). -/
theorem fetch_eq_wait_iff {s : State} (hn : s.nextReq = true) :
    s.fetch = .wait ↔ s.rst = false ∧ s.pendV = false ∧ s.done = false ∧ s.inq = [] := by
  unfold State.fetch
  cases hr : s.rst with
  | true => simp
  | false =>
    cases hp : s.pendV with
    | true => simp [hn]
    | false =>
      cases hd : s.done with
      | true => simp [hn]
      | false => cases hq : s.inq <;> simp [hn]

/-- Settles O31, by `fetch_eq_wait_iff`, on the state and on the two that lift its wait. -/
theorem waitingForInputChangesNothing : Obligations.WaitingForInputChangesNothing := by
  intro s hs hh hn
  refine ⟨fetch_eq_wait_iff hn, fun hwait => ⟨?_, fun it hlift => ?_, fun hlift => ?_⟩⟩
  · rw [step_of_noHost hs.1 hh, blockStep, hwait]
  · obtain ⟨-, -, -, hq⟩ := (fetch_eq_wait_iff (by exact hn)).1 hlift
    cases hq
  · obtain ⟨hr, -⟩ := (fetch_eq_wait_iff (by exact hn)).1 hlift
    cases hr

end Sys2Proof.Machine
end

section
/-! SUPPORT. The port signals against the step (42_interface_control.md R162). -/

namespace Sys2Proof.Machine

/-- The host's coming actions play no part in the block's own step. -/
theorem blockStep_withHost {s u : State} (hs : s.Ok) (l : List HostAct) (h : blockStep s = .next u) :
    blockStep { s with host := l } = .next { u with host := l } := by
  cases hi : s.select with
  | none =>
    rw [blockStep_of_noSelect hi] at h
    obtain rfl := Host.Outcome.next.inj h
    exact blockStep_of_noSelect (s := { s with host := l }) hi
  | some i =>
    rw [blockStep_of_select hs hi] at h
    obtain rfl := Host.Outcome.next.inj h
    rw [blockStep_of_select (s := { s with host := l }) hs hi, effect_withHost]

/-- RESET takes no item. -/
theorem rst_of_takesInput {s : State} {i : Instr} (hi : s.select = some i) (ht : takesInput i = true) :
    s.rst = false := by
  cases hr : s.rst with
  | false => rfl
  | true =>
    have hreset : s.select = some .reset := select_of_facts hr
    obtain rfl := Option.some.inj (hi.symm.trans hreset)
    cases ht

/-- In a step that a host action uses the items offered only grow, and nothing is emitted. -/
theorem step_of_not_blockRuns {s t : State} (h : step s = .next t) (hruns : s.blockRuns = false) :
    t.outs = s.outs ∧ s.inq <+: t.inq := by
  obtain ⟨-, ⟨hh, -⟩ | ⟨a, rest, hh, ha⟩⟩ := step_cases h
  · simp [State.blockRuns, hh] at hruns
  · obtain ⟨-, hact⟩ | ⟨hrunsWith, -⟩ := actionStep_cases ha
    · obtain ⟨ht, hinq⟩ := hostStep_frame hact
      exact ⟨by rw [ht], hinq⟩
    · have : s.blockRuns = true := by rw [State.blockRuns, hh]; exact hrunsWith
      exact imp_of_clear hruns this

/-- In a step in which the block runs, the block's own step makes up all of the output, and outside reset all of the
input. -/
theorem step_of_blockRuns {s t : State} (hs : s.Ok) (h : step s = .next t) (hruns : s.blockRuns = true) :
    ∃ u, blockStep s = .next u ∧ t.outs = u.outs ∧ u.inq <+: t.inq ∧ (s.rst = false → t.inq = u.inq) := by
  obtain ⟨-, ⟨-, hb⟩ | ⟨a, rest, hh, ha⟩⟩ := step_cases h
  · exact ⟨t, hb, rfl, List.prefix_rfl, fun _ => rfl⟩
  · obtain ⟨hnot, -⟩ | ⟨hrunsWith, u, hb, hact⟩ := actionStep_cases ha
    · rw [State.blockRuns, hh] at hruns
      exact imp_of_clear hnot hruns
    · obtain ⟨ht, hinq⟩ := hostStep_frame hact
      refine ⟨_, blockStep_withHost (s := { s with host := rest }) hs s.host hb, by rw [ht], hinq, fun hr => ?_⟩
      by_cases hmicro : a = .micro
      · subst hmicro
        rw [Host.Outcome.next.inj hact]
      · simp [State.runsWith, hr, leavesStep_of_ne_micro hmicro] at hrunsWith

theorem answer_of_blockRuns {s u : State} (hruns : s.blockRuns = true) (hb : blockStep s = .next u) :
    s.answer = u.outs[s.outs.length]? := by
  simp only [State.answer, hruns, hb]

theorem answer_of_not_blockRuns {s : State} (hruns : s.blockRuns = false) : s.answer = none := by
  simp only [State.answer, hruns]

/-- When `in_ready` is high (42_interface_control.md R162). -/
theorem inReady_eq_true_iff (s : State) :
    s.inReady = true ↔ s.blockRuns = true ∧ ∃ i, s.select = some i ∧ takesInput i = true := by
  unfold State.inReady
  cases s.select <;> simp

/-- The block's own step takes the head item, by the row of what is selected, or none, and emits at most one. -/
theorem blockStep_streams {s u : State} (hs : s.Ok) (h : blockStep s = .next u) :
    ((∃ i it, s.select = some i ∧ takesInput i = true ∧ s.inq = it :: u.inq) ∨
      ((∀ i, s.select = some i → takesInput i = false) ∧ u.inq = s.inq)) ∧
    (u.outs = s.outs ∨ ∃ o, u.outs = s.outs ++ [o]) := by
  cases hi : s.select with
  | none =>
    rw [blockStep_of_noSelect hi] at h
    obtain rfl := Host.Outcome.next.inj h
    exact ⟨.inr ⟨nofun, rfl⟩, .inl rfl⟩
  | some i =>
    rw [blockStep_of_select hs hi, ← exec_ok hs hi] at h
    obtain ⟨htakes, hkeeps, houts, -⟩ := aMicroOperationTakesAndEmitsAtMostOneItem i s u h
    refine ⟨?_, houts.imp_right fun ⟨o, ho, _⟩ => ⟨o, ho⟩⟩
    cases ht : takesInput i with
    | true =>
      obtain ⟨it, hq⟩ := htakes ht
      exact .inl ⟨i, it, rfl, ht, hq⟩
    | false => exact .inr ⟨fun j hj => Option.some.inj hj ▸ ht, hkeeps ht⟩

/-- Settles O34: a host action's step by `step_of_not_blockRuns`, the block's by `blockStep_streams`, with input and
output apart. -/
theorem thePortsShowWhatTheStepDoes : Obligations.ThePortsShowWhatTheStepDoes := by
  intro s t hs h
  rw [State.outValid, State.outItem]
  cases hruns : s.blockRuns with
  | false =>
    obtain ⟨houts, hinq⟩ := step_of_not_blockRuns h hruns
    rw [answer_of_not_blockRuns hruns]
    refine ⟨fun hready => ?_, fun _ => hinq, nofun, fun _ => houts⟩
    exact imp_of_clear hruns ((inReady_eq_true_iff s).1 hready).1
  | true =>
    obtain ⟨u, hb, houts, hinq, hkept⟩ := step_of_blockRuns hs h hruns
    obtain ⟨hin, hout⟩ := blockStep_streams hs hb
    rw [answer_of_blockRuns hruns hb, houts, ← and_assoc]
    constructor
    · obtain ⟨i, it, hi, ht, hq⟩ | ⟨hno, hq⟩ := hin
      · have hready : s.inReady = true := (inReady_eq_true_iff s).2 ⟨hruns, i, hi, ht⟩
        rw [hkept (rst_of_takesInput hi ht)]
        exact ⟨fun _ => ⟨it, hq⟩, fun hlow => imp_of_clear hlow hready⟩
      · refine ⟨fun hready => ?_, fun _ => hq ▸ hinq⟩
        obtain ⟨-, i, hi, ht⟩ := (inReady_eq_true_iff s).1 hready
        exact imp_of_clear (hno i hi) ht
    · obtain ho | ⟨o, ho⟩ := hout <;> rw [ho]
      · rw [List.getElem?_eq_none le_rfl]
        exact ⟨nofun, fun _ => rfl⟩
      · rw [List.getElem?_concat_length]
        exact ⟨fun _ => ⟨o, rfl, rfl⟩, nofun⟩

end Sys2Proof.Machine
end

section
/-! SUPPORT. What the model refuses: the guard of every meaning, and the host actions of 60_exceptions.md R208 (c) and
(d), each behind the RESET of its step while reset is asserted. -/

namespace Sys2Proof.Machine

theorem exec_brokenInvariant (i : Instr) {s : State} (hw : s.cfg.wf = true) (h : s.r31 = false) :
    exec i s = .refused .brokenInvariant := by
  rw [exec_eq_guarded, guarded, hw, if_neg nofun, if_pos h]

theorem select_of_rst {s : State} (hr : s.rst = true) : s.select = some .reset :=
  select_of_facts (i := .reset) hr

/-- A step that begins with reset asserted runs RESET before the host's action. -/
theorem actionStep_of_rst {a : HostAct} {s : State} (hr : s.rst = true) :
    actionStep a s = thenHost a (exec .reset s) := by
  obtain ⟨w, hw, hdec⟩ := (fetches_iff_select s .reset).2 (select_of_rst hr)
  rw [actionStep, State.runsWith, hr, Bool.true_or, if_pos rfl, blockStep_of_fetch hw hdec]

/-- An action that is refused under the parameters of the instance is refused in its step, if the RESET that may come
before it is not. -/
theorem actionStep_refused {a : HostAct} {s : State} {r : Refusal} (hw : s.cfg.wf = true) (ha : a.leavesStep = false)
    (href : ∀ u : State, u.cfg = s.cfg → hostStep a u = .refused r) (h : s.rst = false ∨ s.r31 = true) :
    actionStep a s = .refused r := by
  cases hr : s.rst with
  | false => rw [actionStep_alone hr ha, href s rfl]
  | true =>
    have hok : s.r31 = true := h.resolve_left (by simp [hr])
    rw [actionStep_of_rst hr, exec_ok ⟨hw, hok⟩ (select_of_rst hr)]
    exact href _ (effect_cfg .reset s)

/-- Settles O29: the guard refuses the micro-operations, and `actionStep_refused` the host actions, but for a second
NEXT, which without reset has the step for itself. -/
theorem runsOutsideTheSpecAreRefused : Obligations.RunsOutsideTheSpecAreRefused := by
  intro s
  refine ⟨fun hill => ⟨step_illFormed hill, fun i => exec_illFormed i hill⟩, fun hw =>
    ⟨fun hbad i => exec_brokenInvariant i hw hbad, fun rest hh hr hn => ?_, fun rest hh hok => ?_,
      fun c rest hh hc hok => ?_, fun a rest hh hr hbad => ?_⟩⟩
  · rw [step_of_host hw hh, actionStep_alone (by exact hr) rfl, hostStep, if_pos (by exact hn)]
  · rw [step_of_host hw hh]
    exact actionStep_refused hw rfl (fun _ _ => rfl) hok
  · rw [step_of_host hw hh]
    exact actionStep_refused hw rfl (fun u hu => if_neg (hu ▸ hc)) hok
  · rw [step_of_host hw hh, actionStep_of_rst (by exact hr)]
    exact congrArg (thenHost a) (exec_brokenInvariant .reset (s := { s with host := rest }) hw hbad)

end Sys2Proof.Machine
end

section
/-! SUPPORT. Reset over whole steps (70_reset_and_hazards.md R220, R227): a step that begins with reset asserted is
RESET and then the host's action. -/

namespace Sys2Proof.Machine

variable {s t : State}

theorem blockStep_of_rst (hr : s.rst = true) : blockStep s = exec .reset s := by
  obtain ⟨w, hw, hdec⟩ := (fetches_iff_select s .reset).2 (select_of_rst hr)
  exact blockStep_of_fetch hw hdec

/-- The inversion lemma of RESET. -/
theorem exec_reset_next (h : exec .reset s = .next t) : s.rst = true ∧ t = clearRegisters s := by
  obtain ⟨-, hi, ht⟩ := (exec_eq_next_iff .reset s t).1 h
  exact ⟨select_facts hi, ht⟩

/-- RESET clears all but the parameters and the ports' own fields, which a new instance has at their own values. -/
theorem clearRegisters_eq_fresh (s : State) :
    clearRegisters s = { State.fresh s.cfg with rst := s.rst, inq := s.inq, outs := s.outs, host := s.host } :=
  rfl

/-- Settles O13: RESET is selected only with reset asserted, so the level that stays is high. -/
theorem resetGivesTheStateOfAFreshStream : Obligations.ResetGivesTheStateOfAFreshStream := by
  intro s t h
  obtain ⟨hr, rfl⟩ := exec_reset_next h
  rw [clearRegisters_eq_fresh, hr]

/-- The inversion lemma of a step that begins with reset asserted. -/
theorem step_of_rst_cases (hr : s.rst = true) (h : step s = .next t) :
    (s.host = [] ∧ t = clearRegisters s) ∨
    ∃ a rest, s.host = a :: rest ∧ hostStep a (clearRegisters { s with host := rest }) = .next t := by
  obtain ⟨-, ⟨hh, hb⟩ | ⟨a, rest, hh, ha⟩⟩ := step_cases h
  · rw [blockStep_of_rst hr] at hb
    exact .inl ⟨hh, (exec_reset_next hb).2⟩
  · obtain ⟨hnot, -⟩ | ⟨-, u, hb, hact⟩ := actionStep_cases ha
    · simp [State.runsWith, hr] at hnot
    · rw [blockStep_of_rst (by exact hr)] at hb
      obtain ⟨-, rfl⟩ := exec_reset_next hb
      exact .inr ⟨a, rest, hh, hact⟩

/-- Only the host's request starts a NEXT (42_interface_control.md R161). -/
theorem request_of_hostStep {a : HostAct} (h : hostStep a s = .next t) (hs : s.nextReq = false)
    (ht : t.nextReq = true) : a = .request := by
  obtain ⟨it, -, rfl⟩ | ⟨rfl, -⟩ | ⟨l, -, rfl⟩ | ⟨-, rfl⟩ | ⟨-, rfl⟩ := hostStep_cases h
  case inr.inl => rfl
  all_goals exact imp_of_clear hs ht

/-- From a state of R31 a step that begins with reset asserted leaves to the host's action a cleared state. -/
theorem step_of_rst_host {a : HostAct} {rest : List HostAct} (hs : s.Ok) (hr : s.rst = true) (hh : s.host = a :: rest) :
    step s = hostStep a (clearRegisters { s with host := rest }) := by
  rw [step_of_host hs.1 hh, actionStep_of_rst (by exact hr),
    exec_ok (by exact hs) (select_of_rst (by exact hr)), thenHost, effect]

/-- Settles O54: the first part by `step_of_rst_cases`, since after RESET no host action can touch a register; in the
second the raised level alone is the first step, and the second runs RESET before it lowers the level. -/
theorem noAssertionOfResetIsLost : Obligations.NoAssertionOfResetIsLost := by
  refine ⟨fun s t hr h => ?_, fun s rest hs hr hh => ?_⟩
  · obtain ⟨-, rfl⟩ | ⟨a, rest, hh, hact⟩ := step_of_rst_cases hr h
    · exact ⟨⟨rfl, rfl, rfl, rfl, rfl, rfl, rfl⟩, rfl, List.prefix_rfl, nofun⟩
    · obtain ⟨ht, hinq⟩ := hostStep_frame hact
      have hreq : t.nextReq = true → a = .request := request_of_hostStep hact rfl
      have hhost : t.host = rest := by rw [ht]; rfl
      refine ⟨?_, by rw [ht]; rfl, hinq, fun hn => by rw [hh, hreq hn, hhost]⟩
      rw [ht]
      exact ⟨rfl, rfl, rfl, rfl, rfl, rfl, rfl⟩
  · have hraise : step s = .next { s with rst := true, host := .setRst false :: rest } := by
      rw [step_of_host hs.1 hh, actionStep_alone (by exact hr) rfl, hostStep]
    have hreset := step_of_rst_host (s := { s with rst := true, host := .setRst false :: rest }) (by exact hs) rfl rfl
    exact ⟨_, _, hraise, hreset, ⟨rfl, rfl, rfl, rfl, rfl, rfl, rfl⟩, rfl, rfl, rfl, rfl, rfl⟩

end Sys2Proof.Machine
end

section
/-! SUPPORT. The selector words that the programs of 95_test_vectors.md write out bit by bit. -/

namespace Sys2Proof

/-- Settles O26: eight of the words are encodings (O24). The second word of ENC_EMIT has `DONE` set and that of
RESET has `PEND_V` set, bits which those micro-operations do not sample (O25). -/
theorem theProgramWordsDecodeAsListed : Obligations.TheProgramWordsDecodeAsListed := by
  have encoding (i : Instr) : decodeSel (encode i) = .ok i := (decodeOfEncodeIsTheMicroOperation i).1
  have hdone : decodeSel 0b0011000000000#13 = .ok .encEmit := (decodingReadsExactlyTheSampledBits .encEmit _).2 rfl
  have hpendV : decodeSel 0b1001000000000#13 = .ok .reset := (decodingReadsExactlyTheSampledBits .reset _).2 rfl
  exact ⟨encoding (.encByte 0x74), encoding .encEmit, hdone, encoding .encEos, encoding .encEnd,
    encoding (.decSym 0x66), encoding .decEmit, encoding .decEos, encoding .decEnd, hpendV⟩

end Sys2Proof
end
